-- ==== Sys2Proof/Word.lean ====
section
/-! DEFINITION. The bit vectors the spec names and the type of a register number (R9, R21, R62). -/

namespace Sys2Proof

/-- A memory byte, a general register, a timer, the stack pointer (R5). -/
abbrev Byte := BitVec 8

/-- An opcode, `PC`, `I`, a stack entry (R5). -/
abbrev Word := BitVec 16

/-- The field `nnn`: a 12-bit immediate address (R62). -/
abbrev Addr := BitVec 12

/-- The field `n` and each of `d1` to `d4` (R61, R62). -/
abbrev Nibble := BitVec 4

/-- The number of a general register, V0 to VF (R21): every number an instruction can form exists. -/
abbrev Reg := Fin 16

/-- `VF`, register 15, the collision flag (R22). -/
abbrev vf : Reg := 15

end Sys2Proof
end

