-- ==== Sys2Proof/Config.lean ====
section
/-! DEFINITION. The two open parameters of R6. The fixed parameters of R5 stand as numerals where the spec's
pseudocode uses them: 4096 bytes of memory, programs at 0x200, a 64 by 32 display, 16 stack entries, 80 font bytes.
There is no free value: "There is no behaviour in this machine that a model should treat as any value"
(93_implementation_defined.md, Part 1; R88). -/

namespace Sys2Proof

/-- `DRAW_MODE`: what DRW does to a touched pixel (R6, R96). -/
inductive DrawMode where
  /-- The pixel becomes true. -/
  | set
  /-- The pixel toggles. -/
  | xor
  deriving DecidableEq, Repr

/-- The parameters a model "takes as arguments" (R6), fixed for one machine. -/
structure Params where
  drawMode : DrawMode
  /-- `FONT[0..79]`, which RESET copies to addresses 0x000 to 0x04F. -/
  font : Vector Byte 80
  deriving DecidableEq, Repr

end Sys2Proof
end

