-- ==== Sys2Proof/Machine/Params.lean ====
section
/-! DEFINITION. The default values of the open parameters (R6): the machine that `State.reset` is. -/

namespace Sys2Proof.Machine

/-- `DRAW_MODE` defaults to `SET` (R6; 92_eei_decisions.md D1; notes/assumptions/2.md). -/
def defaultDrawMode : DrawMode := .set

/-- `FONT` defaults to the canonical hexadecimal font, glyph `g` at `5 g`
(93_implementation_defined.md GK1; PRESUMED, notes/assumptions/3.md). -/
def defaultFont : Vector Byte 80 := #v[
  0xF0, 0x90, 0x90, 0x90, 0xF0,  0x20, 0x60, 0x20, 0x20, 0x70,
  0xF0, 0x10, 0xF0, 0x80, 0xF0,  0xF0, 0x10, 0xF0, 0x10, 0xF0,
  0x90, 0x90, 0xF0, 0x10, 0x10,  0xF0, 0x80, 0xF0, 0x10, 0xF0,
  0xF0, 0x80, 0xF0, 0x90, 0xF0,  0xF0, 0x10, 0x20, 0x40, 0x40,
  0xF0, 0x90, 0xF0, 0x90, 0xF0,  0xF0, 0x90, 0xF0, 0x10, 0xF0,
  0xF0, 0x90, 0xF0, 0x90, 0x90,  0xE0, 0x90, 0xE0, 0x90, 0xE0,
  0xF0, 0x80, 0x80, 0x80, 0xF0,  0xE0, 0x90, 0x90, 0x90, 0xE0,
  0xF0, 0x80, 0xF0, 0x80, 0xF0,  0xF0, 0x80, 0xF0, 0x80, 0x80]

/-- Both parameters at their defaults. -/
def defaultParams : Params := ⟨defaultDrawMode, defaultFont⟩

end Sys2Proof.Machine
end

