-- ==== Sys2Proof/Machine/State.lean ====
section
/-! DEFINITION. The machine's state as plain data (R20), its outcomes' reasons, and the state RESET leaves (R35). -/

namespace Sys2Proof.Machine

/-- Why `step` could stop with no next state. The machine's own faults (R120) are NOT here: R122 gives the state
after each, so a faulting TICK has a next state, in which `State.fault` holds the record. -/
inductive Fault where
  /-- Raised by `memRead` and `memWrite` for an address above 4095, for which R42 and R43 define nothing. Safe: the
  model stops where the spec gives no effect. No step reaches it, since every caller checks its bound first (R42). -/
  | noSuchAddress (addr : Nat)
  deriving DecidableEq, Repr

/-- Why an instruction could be refused a meaning. -/
inductive Refusal where
  /-- Raised by an arm of `exec` for an instruction that has no meaning yet; safe. No arm raises it: all six
  instructions have their meaning. -/
  | notModelled (mnemonic : String)
  deriving DecidableEq, Repr

/-- The four faults a TICK can latch (R120). LOAD_BOUNDS is not one of them (R127). -/
inductive FaultCode where
  | fetchBounds
  | unsupportedOpcode
  | stackBounds
  | spriteBounds
  deriving DecidableEq, Repr

/-- The record a fault latches (R121). -/
structure FaultRecord where
  code : FaultCode
  /-- The address the faulting opcode was, or would have been, fetched from. -/
  pc : Word
  opcode : Word
  info : Word
  deriving DecidableEq, Repr

/-- The bytes of `mem` that differ from what RESET put there: (address, byte) pairs, addresses rising, no pair equal
to what `unlisted` gives its address (`Memory.wf`). -/
abbrev Memory := List Host.Cell

/-- The display buffer `D` (R28): 32 rows, top first, of 64 pixels, left first; true means lit. Entry
`D[x + 64 y]` is row `y`, column `x` (`Display.entry`). -/
abbrev Display := Vector (Vector Bool 64) 32

/-- Everything R20 gives the core, and the two parameters of R6. -/
structure State where
  /-- `V[0..15]` (R21). -/
  v : Vector Byte 16
  /-- Index register `I` (R23). -/
  i : Word
  /-- Program counter `PC` (R24). -/
  pc : Word
  /-- `STACK[0..15]` (R25). -/
  stack : Vector Word 16
  /-- Stack pointer `SP` (R26). -/
  sp : Byte
  /-- `mem[0..4095]` (R27), read through `memRead` and written through `memWrite`. -/
  mem : Memory
  /-- `D[0..2047]` (R28). -/
  display : Display
  /-- Key state `K[0..15]`; nothing but RESET writes it and nothing reads it (R29). -/
  keys : Vector Bool 16
  /-- Delay timer `DT` (R30). -/
  dt : Byte
  /-- Sound timer `ST` (R30). -/
  st : Byte
  /-- The fault latch (R31): `none` is READY, a record is FAULTED (R80). -/
  fault : Option FaultRecord
  /-- The model's own field, not state of the core (R32): the parameters of R6, carried here because `step` takes no
  other argument, and written by nothing (notes/assumptions/1.md). -/
  params : Params
  deriving DecidableEq, Repr

/-- The table of R35 for a machine with parameters `p`. Nothing is listed in memory: every byte is what RESET leaves
there. -/
def State.resetWith (p : Params) : State where
  v := Vector.replicate 16 0x00
  i := 0x0000
  pc := 0x0200
  stack := Vector.replicate 16 0x0000
  sp := 0x00
  mem := []
  display := Vector.replicate 32 (Vector.replicate 64 false)
  keys := Vector.replicate 16 false
  dt := 0x00
  st := 0x00
  fault := none
  params := p

/-- The state after RESET (R35, R140), the parameters at their defaults. -/
def State.reset : State := State.resetWith defaultParams

end Sys2Proof.Machine
end

