-- ==== Sys2Proof/Machine/Memory.lean ====
section
/-! DEFINITION. Memory as a canonical list: what an unlisted address holds, looking a byte up, putting one in. -/

namespace Sys2Proof.Machine

/-- What RESET leaves at an address (R27, R41): the font at 0x000 to 0x04F, 0x00 elsewhere. -/
def unlisted (p : Params) (a : Nat) : Byte :=
  if h : a < 80 then p.font[a] else 0x00

/-- The listed byte of an address, if there is one. -/
def Memory.find (a : Nat) : Memory → Option Byte
  | [] => none
  | (b, u) :: rest => if a = b then some u else Memory.find a rest

/-- The byte at an address. -/
def Memory.get (p : Params) (m : Memory) (a : Nat) : Byte :=
  (Memory.find a m).getD (unlisted p a)

/-- The pair `(a, u)` put before the first larger address. -/
def Memory.insert (a : Nat) (u : Byte) : Memory → Memory
  | [] => [(a, u)]
  | c :: rest => if a < c.1 then (a, u) :: c :: rest else c :: Memory.insert a u rest

/-- The list without any pair of address `a`. -/
def Memory.erase (a : Nat) : Memory → Memory
  | [] => []
  | c :: rest => if c.1 = a then Memory.erase a rest else c :: Memory.erase a rest

/-- The list with `u` at `a`, where an unlisted `a` reads as `d`: a byte equal to `d` is not listed. -/
def Memory.put (d : Byte) (a : Nat) (u : Byte) (m : Memory) : Memory :=
  if u = d then Memory.erase a m else Memory.insert a u (Memory.erase a m)

/-- From `lo` on: addresses rise strictly, each exists, and no listed byte is what the address holds unlisted. -/
def Memory.wfFrom (p : Params) (lo : Nat) : Memory → Bool
  | [] => true
  | (b, u) :: rest =>
    decide (lo ≤ b) && decide (b < 4096) && decide (u ≠ unlisted p b) && Memory.wfFrom p (b + 1) rest

/-- The canonical form: equal memories are equal lists. -/
def Memory.wf (p : Params) (m : Memory) : Bool := Memory.wfFrom p 0 m

end Sys2Proof.Machine
end

