-- ==== Sys2Proof/Machine/Ops.lean ====
section
/-! DEFINITION. The operations every rule is written in (R10): registers, memory, display entries, and taking a
fault. There is no return from a fault (R125): the only way out of FAULTED is RESET (Commands.lean). -/

namespace Sys2Proof.Machine

/-- `V[x]` (R10). -/
def State.getV (s : State) (x : Reg) : Byte := s.v[x.val]

/-- `V[x] <- b`. -/
def State.setV (s : State) (x : Reg) (b : Byte) : State := { s with v := s.v.set x.val b }

/-- `I <- w`. -/
def State.setI (s : State) (w : Word) : State := { s with i := w }

/-- `PC <- w`. -/
def State.setPc (s : State) (w : Word) : State := { s with pc := w }

/-- `D <- d`, the whole display. -/
def State.setDisplay (s : State) (d : Display) : State := { s with display := d }

/-- `mem <- m`, the whole list. -/
def State.setMem (s : State) (m : Memory) : State := { s with mem := m }

/-- The advance of fetch, `PC <- PC + 2`, for every opcode (R82). -/
def State.advancePc (s : State) : State := s.setPc (s.pc + 2)

/-- The address `a` of the instruction being executed: fetch has already set `PC <- a + 2` (R81, R85). -/
def State.instrAddr (s : State) : Word := s.pc - 2

/-- `MemRead(a, 1)`, defined only for `0 <= a <= 4095`, never wrapping (R42). -/
def memRead (s : State) (a : Nat) : Except Fault Byte :=
  if a < 4096 then .ok (s.mem.get s.params a) else .error (.noSuchAddress a)

/-- The byte `u` put at `a`, keeping the canonical form. -/
def State.putByte (s : State) (a : Nat) (u : Byte) : State :=
  s.setMem (Memory.put (unlisted s.params a) a u s.mem)

/-- `MemWrite(a, 1, u)`, defined only for `0 <= a <= 4095` (R43). Only LOAD calls it. -/
def memWrite (s : State) (a : Nat) (u : Byte) : Except Fault State :=
  if a < 4096 then .ok (s.putByte a u) else .error (.noSuchAddress a)

/-- The `n` bytes at `a`, `a + 1`, ... in ascending order (R46). -/
def memReadMany (s : State) (a : Nat) : Nat → Except Fault (List Byte)
  | 0 => .ok []
  | n + 1 =>
    match memRead s a with
    | .error f => .error f
    | .ok b =>
      match memReadMany s (a + 1) n with
      | .error f => .error f
      | .ok bs => .ok (b :: bs)

/-- The bytes written at `a`, `a + 1`, ... in ascending order (R106). -/
def memWriteMany (s : State) (a : Nat) : List Byte → Except Fault State
  | [] => .ok s
  | b :: bs =>
    match memWrite s a b with
    | .error f => .error f
    | .ok t => memWriteMany t (a + 1) bs

/-- The display with every entry false (R28, R90). -/
def Display.dark : Display := Vector.replicate 32 (Vector.replicate 64 false)

/-- Pixel `(x, y)`, the coordinates wrapping (R28, R96). -/
def Display.pixel (d : Display) (x y : Nat) : Bool :=
  (d[y % 32]'(Nat.mod_lt _ (by decide)))[x % 64]'(Nat.mod_lt _ (by decide))

/-- The display with pixel `(x, y)` set to `b`, the coordinates wrapping. -/
def Display.setPixel (d : Display) (x y : Nat) (b : Bool) : Display :=
  d.set (y % 32)
    ((d[y % 32]'(Nat.mod_lt _ (by decide))).set (x % 64) b (Nat.mod_lt _ (by decide)))
    (Nat.mod_lt _ (by decide))

/-- `D[k]` = pixel `(k mod 64, k / 64)`: row-major, index `x + 64 y` (R28). -/
def Display.entry (d : Display) (k : Fin 2048) : Bool := Display.pixel d (k.val % 64) (k.val / 64)

/-- `raise F(pc, opcode, info)` (R122): the record goes to the latch, which makes the core FAULTED; nothing else
changes, and control goes nowhere. -/
def State.raise (s : State) (code : FaultCode) (pc opcode info : Word) : State :=
  { s with fault := some ⟨code, pc, opcode, info⟩ }

end Sys2Proof.Machine
end

