-- ==== Sys2Proof/Machine/Operands.lean ====
section
/-! DEFINITION. The operand forms (R62, R64): an immediate address, an immediate byte (used as it is), a register's
content as a coordinate, and the sprite `I` and `n` name. -/

namespace Sys2Proof.Machine

/-- `zext_16(opcode[11:0])`: not scaled, not added to anything (R64). -/
def immAddr (nnn : Addr) : Word := nnn.setWidth 16

/-- A coordinate of DRW: the content of a register, 0 to 255, not yet wrapped (R95). -/
def State.coord (s : State) (x : Reg) : Nat := (s.getV x).toNat

/-- All `n` sprite bytes at `I` exist: `I + n <= 4096`, a natural-number sum, `I` not masked (R97). -/
abbrev State.spriteInBounds (s : State) (n : Nibble) : Prop := s.i.toNat + n.toNat ≤ 4096

/-- The sprite's rows `mem[I]`, ..., `mem[I + n - 1]`, top first (R95, R96). -/
def State.spriteRows (s : State) (n : Nibble) : Except Fault (List Byte) :=
  memReadMany s s.i.toNat n.toNat

end Sys2Proof.Machine
end

