-- ==== Sys2Proof/Machine/Control.lean ====
section
/-! DEFINITION. The control-transfer family: `JP addr`, its only member (42_jp.md). -/

namespace Sys2Proof.Machine

/-- `JP addr`: `PC <- zext_16(nnn)` (R91). -/
def execJp (nnn : Addr) (s : State) : Host.Outcome State Fault Refusal :=
  .next (s.setPc (immAddr nnn))

end Sys2Proof.Machine
end

