-- ==== Sys2Proof/Syntax.lean ====
section
/-! DEFINITION. The six instructions, one constructor per row of spec/opcode_table.json (R63, R65). -/

namespace Sys2Proof

/-- An instruction with its operand fields (R62). No field can hold a value its encoding cannot:
"every value of the free fields is legal" (R65). -/
inductive Instr where
  /-- `CLS`, word `00E0` (R90). -/
  | cls
  /-- `JP addr`, pattern `1NNN` (R91). -/
  | jp (nnn : Addr)
  /-- `LD Vx, byte`, pattern `6XKK` (R92). -/
  | ld (x : Reg) (kk : Byte)
  /-- `ADD Vx, byte`, pattern `7XKK` (R93). -/
  | add (x : Reg) (kk : Byte)
  /-- `LD I, addr`, pattern `ANNN` (R94). -/
  | ldI (nnn : Addr)
  /-- `DRW Vx, Vy, nibble`, pattern `DXYN` (R95). -/
  | drw (x y : Reg) (n : Nibble)
  deriving DecidableEq, Repr

end Sys2Proof
end

