-- ==== Sys2Proof/WellFormed.lean ====
section
/-! DEFINITION. Assembler lines with plain numbers as operands, the range check of R68, and the instruction a
well-formed line stands for. An `Instr` needs no check of its own: its field types admit exactly the legal values. -/

namespace Sys2Proof

/-- One line of assembler (R68), its operands as the programmer wrote them: any natural number. -/
inductive AsmLine where
  | cls
  | jp (addr : Nat)
  | ld (x byte : Nat)
  | add (x byte : Nat)
  | ldI (addr : Nat)
  | drw (x y nibble : Nat)
  deriving DecidableEq, Repr

/-- Every operand lies in the range R68 states for it. -/
def AsmLine.wellFormed : AsmLine → Bool
  | .cls => true
  | .jp addr => decide (addr < 4096)
  | .ld x byte => decide (x < 16) && decide (byte < 256)
  | .add x byte => decide (x < 16) && decide (byte < 256)
  | .ldI addr => decide (addr < 4096)
  | .drw x y nibble => decide (x < 16) && decide (y < 16) && decide (nibble < 16)

/-- The register a number below 16 names. -/
def regOfNat (x : Nat) : Reg := ⟨x % 16, Nat.mod_lt _ (by decide)⟩

/-- The instruction of a line, before its ranges are looked at. -/
def AsmLine.toInstr : AsmLine → Instr
  | .cls => .cls
  | .jp addr => .jp (BitVec.ofNat 12 addr)
  | .ld x byte => .ld (regOfNat x) (BitVec.ofNat 8 byte)
  | .add x byte => .add (regOfNat x) (BitVec.ofNat 8 byte)
  | .ldI addr => .ldI (BitVec.ofNat 12 addr)
  | .drw x y nibble => .drw (regOfNat x) (regOfNat y) (BitVec.ofNat 4 nibble)

/-- "An operand out of the stated range does not fit its field and is an assembly error, not a
truncation" (R68). -/
def AsmLine.assemble (l : AsmLine) : Option Instr :=
  if l.wellFormed then some l.toInstr else none

/-- The line that spells an instruction. -/
def Instr.toAsm : Instr → AsmLine
  | .cls => .cls
  | .jp nnn => .jp nnn.toNat
  | .ld x kk => .ld x.val kk.toNat
  | .add x kk => .add x.val kk.toNat
  | .ldI nnn => .ldI nnn.toNat
  | .drw x y n => .drw x.val y.val n.toNat

/-- An instruction is well-formed when the line that spells it is. It always is (Laws/Syntax.lean). -/
def Instr.wellFormed (i : Instr) : Bool := i.toAsm.wellFormed

/-- One hexadecimal digit, capital letters. -/
def hexDigit (n : Nat) : String :=
  match n % 16 with
  | 10 => "A" | 11 => "B" | 12 => "C" | 13 => "D" | 14 => "E" | 15 => "F"
  | k => toString k

/-- Two hexadecimal digits. -/
def hexByte (n : Nat) : String := "0x" ++ hexDigit (n / 16) ++ hexDigit n

/-- Three hexadecimal digits. -/
def hexAddr (n : Nat) : String := "0x" ++ hexDigit (n / 256) ++ hexDigit (n / 16) ++ hexDigit n

/-- The spelling of a line (R68; the examples of R71): registers `V0` to `VF`, bytes and addresses in
hexadecimal, the nibble in decimal. -/
def AsmLine.text : AsmLine → String
  | .cls => "CLS"
  | .jp addr => "JP " ++ hexAddr addr
  | .ld x byte => "LD V" ++ hexDigit x ++ ", " ++ hexByte byte
  | .add x byte => "ADD V" ++ hexDigit x ++ ", " ++ hexByte byte
  | .ldI addr => "LD I, " ++ hexAddr addr
  | .drw x y nibble => "DRW V" ++ hexDigit x ++ ", V" ++ hexDigit y ++ ", " ++ toString nibble

end Sys2Proof
end

