-- ==== Sys2Proof/Decode.lean ====
section
/-! DEFINITION. The opcode's fields (R61, R62), the opcode map (R65), the decoder, total on any bytes, and the
encoder (R63, R68). -/

namespace Sys2Proof

/-- Why bytes give no instruction. -/
inductive DecodeError where
  /-- Row 7 of R65: the word matches none of the six patterns (R66, R100). -/
  | unsupported (opcode : Word)
  /-- Fewer than two bytes: every instruction is exactly two (R60). -/
  | truncated (bytes : List Byte)
  deriving DecidableEq, Repr

/-- `x` = `opcode[11:8]` (R62). -/
def fieldX (w : Word) : Reg := ⟨(w.extractLsb' 8 4).toNat, (w.extractLsb' 8 4).isLt⟩

/-- `y` = `opcode[7:4]` (R62). -/
def fieldY (w : Word) : Reg := ⟨(w.extractLsb' 4 4).toNat, (w.extractLsb' 4 4).isLt⟩

/-- `n` = `opcode[3:0]` (R62). -/
def fieldN (w : Word) : Nibble := w.extractLsb' 0 4

/-- `kk` = `opcode[7:0]` (R62). -/
def fieldKK (w : Word) : Byte := w.extractLsb' 0 8

/-- `nnn` = `opcode[11:0]` (R62). -/
def fieldNNN (w : Word) : Addr := w.extractLsb' 0 12

/-- One row of the opcode map: a word selects it when `word & mask = pattern` (R65). -/
structure OpcodeRow where
  pattern : Word
  mask : Word
  /-- The instruction of a word that selects the row. -/
  build : Word → Instr

/-- Rows 1 to 6 of R65. -/
def opcodeTable : List OpcodeRow := [
  ⟨0x00E0#16, 0xFFFF#16, fun _ => .cls⟩,
  ⟨0x1000#16, 0xF000#16, fun w => .jp (fieldNNN w)⟩,
  ⟨0x6000#16, 0xF000#16, fun w => .ld (fieldX w) (fieldKK w)⟩,
  ⟨0x7000#16, 0xF000#16, fun w => .add (fieldX w) (fieldKK w)⟩,
  ⟨0xA000#16, 0xF000#16, fun w => .ldI (fieldNNN w)⟩,
  ⟨0xD000#16, 0xF000#16, fun w => .drw (fieldX w) (fieldY w) (fieldN w)⟩]

/-- The word selects the row. -/
def OpcodeRow.selects (r : OpcodeRow) (w : Word) : Bool := decide (w &&& r.mask = r.pattern)

/-- Decode of one opcode: "a total function from the 65536 opcode values to seven outcomes" (R65, R84). -/
def decodeWord (w : Word) : Except DecodeError Instr :=
  match opcodeTable.find? (fun r => r.selects w) with
  | some r => .ok (r.build w)
  | none => .error (.unsupported w)

/-- `(high << 8) | low`: the byte at the lower address is the high byte (R44, R60, R82). -/
def wordOfBytes (hi lo : Byte) : Word := hi.setWidth 16 <<< 8 ||| lo.setWidth 16

/-- Decode the first instruction of some bytes in memory order and give the bytes after it. -/
def decode : List Byte → Except DecodeError (Instr × List Byte)
  | hi :: lo :: rest =>
    match decodeWord (wordOfBytes hi lo) with
    | .ok i => .ok (i, rest)
    | .error e => .error e
  | bytes => .error (.truncated bytes)

/-- A register number at the width of an opcode. -/
def regWord (x : Reg) : Word := BitVec.ofNat 16 x.val

/-- The word of an instruction, as R68 gives it. -/
def encode : Instr → Word
  | .cls => 0x00E0#16
  | .jp nnn => 0x1000#16 ||| nnn.setWidth 16
  | .ld x kk => 0x6000#16 ||| regWord x <<< 8 ||| kk.setWidth 16
  | .add x kk => 0x7000#16 ||| regWord x <<< 8 ||| kk.setWidth 16
  | .ldI nnn => 0xA000#16 ||| nnn.setWidth 16
  | .drw x y n => 0xD000#16 ||| regWord x <<< 8 ||| regWord y <<< 4 ||| n.setWidth 16

/-- The bytes of a word in memory order, high byte first (R44). -/
def bytesOfWord (w : Word) : List Byte := [w.extractLsb' 8 8, w.extractLsb' 0 8]

/-- The bytes of an instruction in memory order. -/
def encodeBytes (i : Instr) : List Byte := bytesOfWord (encode i)

/-- The opcode whose low `nbits` bits are `w` and whose other bits are 0. -/
def opcodeOfTable (nbits w : Nat) : Word := BitVec.ofNat 16 (w % 2 ^ nbits)

/-- What the decoder reads from an instruction given as spec/opcode_table.json numbers its bits: one 16-bit word,
laid out high byte first. -/
def decodeTableWord (nbits w : Nat) : Option Instr :=
  match decode (bytesOfWord (opcodeOfTable nbits w)) with
  | .ok (i, _) => some i
  | .error _ => none

end Sys2Proof
end

