-- ==== Sys2Proof/Machine/Flags.lean ====
section
/-! DEFINITION. The one flag, VF, and the arithmetic that does not touch it (R22, R93). -/

namespace Sys2Proof.Machine

/-- The byte DRW writes to VF: 0x01 on a collision, 0x00 otherwise (R22). -/
def collisionByte (collision : Bool) : Byte := if collision then 0x01 else 0x00

/-- `V[15] <- collision` (R95). -/
def State.setCollision (s : State) (collision : Bool) : State := s.setV vf (collisionByte collision)

/-- The sum on natural numbers reduced modulo 256; the carry is discarded and no flag records it (R93). -/
def addMod256 (a b : Byte) : Byte := BitVec.ofNat 8 ((a.toNat + b.toNat) % 256)

end Sys2Proof.Machine
end

