-- ==== Sys2Proof/Machine/Draw.lean ====
section
/-! DEFINITION. The display family: `CLS` (41_cls.md) and `DRW Vx, Vy, nibble` (45_drw.md). -/

namespace Sys2Proof.Machine

/-- `CLS`: every display entry becomes false, nothing else changes (R90). -/
def execCls (s : State) : Host.Outcome State Fault Refusal :=
  .next (s.setDisplay Display.dark)

/-- `Pixel(DRAW_MODE, old)`, the new value of a touched entry (R96). -/
def pixelOp (mode : DrawMode) (old : Bool) : Bool :=
  match mode with
  | .set => true
  | .xor => !old

/-- What the drawing loop carries: the display so far and whether a touched pixel was already true (R95). -/
structure Canvas where
  display : Display
  collision : Bool
  deriving DecidableEq, Repr

/-- Touch pixel `(x, y)`: test it for the collision, then write it (R95, R96). -/
def Canvas.touch (mode : DrawMode) (x y : Nat) (c : Canvas) : Canvas :=
  let old := Display.pixel c.display x y
  ⟨Display.setPixel c.display x y (pixelOp mode old), c.collision || old⟩

/-- Column `dx` of a sprite row `b` at `(x0, y)`: its bit `7 - dx`, if 1, touches column `x0 + dx` (R96). -/
def Canvas.drawBit (mode : DrawMode) (x0 y : Nat) (b : Byte) (c : Canvas) (dx : Nat) : Canvas :=
  if b.getLsbD (7 - dx) then Canvas.touch mode (x0 + dx) y c else c

/-- `for dx in 0 .. 7`: one sprite row, most significant bit first (R95). -/
def Canvas.drawRow (mode : DrawMode) (x0 y : Nat) (b : Byte) (c : Canvas) : Canvas :=
  (List.range 8).foldl (Canvas.drawBit mode x0 y b) c

/-- `for row in 0 .. n - 1`: the sprite's rows from display row `y` down (R95). -/
def Canvas.drawRows (mode : DrawMode) (x0 y : Nat) : List Byte → Canvas → Canvas
  | [], c => c
  | b :: rows, c => Canvas.drawRows mode x0 (y + 1) rows (Canvas.drawRow mode x0 y b c)

/-- The state after a DRW whose sprite rows are `rows`: the coordinates are read before VF is written (R95). -/
def State.drawSprite (s : State) (x y : Reg) (rows : List Byte) : State :=
  let c := Canvas.drawRows s.params.drawMode (s.coord x) (s.coord y) rows ⟨s.display, false⟩
  (s.setDisplay c.display).setCollision c.collision

/-- `raise SPRITE_BOUNDS(pc = a, opcode, info = I)` (R95, R97, R121). -/
def State.raiseSprite (s : State) (opcode : Word) : State :=
  s.raise .spriteBounds s.instrAddr opcode s.i

/-- `DRW Vx, Vy, nibble`: the bound is checked once, before anything is drawn (R95, R97). -/
def execDrw (x y : Reg) (n : Nibble) (s : State) : Host.Outcome State Fault Refusal :=
  if s.spriteInBounds n then
    match s.spriteRows n with
    | .error f => .fault f
    | .ok rows => .next (s.drawSprite x y rows)
  else .next (s.raiseSprite (encode (.drw x y n)))

end Sys2Proof.Machine
end

