-- ==== Sys2Proof/Machine/Immediate.lean ====
section
/-! DEFINITION. The register-immediate family and the index register (43_ld_add_imm.md, 44_ld_i.md). -/

namespace Sys2Proof.Machine

/-- `LD Vx, byte`: `V[x] <- kk` (R92). -/
def execLd (x : Reg) (kk : Byte) (s : State) : Host.Outcome State Fault Refusal :=
  .next (s.setV x kk)

/-- `ADD Vx, byte`: `V[x] <- (V[x] + kk) mod 256`, no flag (R93). -/
def execAdd (x : Reg) (kk : Byte) (s : State) : Host.Outcome State Fault Refusal :=
  .next (s.setV x (addMod256 (s.getV x) kk))

/-- `LD I, addr`: `I <- zext_16(nnn)` (R94). -/
def execLdI (nnn : Addr) (s : State) : Host.Outcome State Fault Refusal :=
  .next (s.setI (immAddr nnn))

end Sys2Proof.Machine
end

