-- ==== Sys2Proof/Machine/Dispatch.lean ====
section
/-! DEFINITION. Execute's dispatch (R85): one arm per instruction, on the state after fetch, in which `PC = a + 2`. -/

namespace Sys2Proof.Machine

def exec (i : Instr) (s : State) : Host.Outcome State Fault Refusal :=
  match i with
  | .cls => Sys2Proof.Machine.execCls s
  | .jp nnn => Sys2Proof.Machine.execJp nnn s
  | .ld x kk => Sys2Proof.Machine.execLd x kk s
  | .add x kk => Sys2Proof.Machine.execAdd x kk s
  | .ldI nnn => Sys2Proof.Machine.execLdI nnn s
  | .drw x y n => Sys2Proof.Machine.execDrw x y n s

end Sys2Proof.Machine
end

