-- ==== Sys2Proof/Machine/Cycle.lean ====
section
/-! DEFINITION. The fetch-decode-execute cycle: the TICK command (40_cycle.md) and what every other opcode does
(46_unsupported.md). -/

namespace Sys2Proof.Machine

/-- `PC` and `PC + 1` are valid memory indices, a natural-number sum (R83). -/
abbrev State.fetchInBounds (s : State) : Prop := s.pc.toNat + 1 ≤ 4095

/-- `opcode <- MemRead(PC, 1) ++ MemRead(PC + 1, 1)`, big-endian (R44, R82). -/
def fetchOpcode (s : State) : Except Fault Word :=
  match memRead s s.pc.toNat with
  | .error f => .error f
  | .ok hi =>
    match memRead s (s.pc.toNat + 1) with
    | .error f => .error f
    | .ok lo => .ok (wordOfBytes hi lo)

/-- `raise FETCH_BOUNDS(pc = PC)`: nothing was fetched, so the record's opcode is 0 (R83, R121). -/
def State.raiseFetch (s : State) : State := s.raise .fetchBounds s.pc 0x0000 0x0000

/-- `raise UNSUPPORTED_OPCODE(pc = a, opcode)` (R100, R121). -/
def State.raiseUnsupported (s : State) (opcode : Word) : State :=
  s.raise .unsupportedOpcode s.instrAddr opcode 0x0000

/-- DECODE and EXECUTE of a fetched opcode, on the state after fetch (R84, R85, R100). -/
def executeOpcode (opcode : Word) (s : State) : Host.Outcome State Fault Refusal :=
  match decodeWord opcode with
  | .ok i => exec i s
  | .error _ => .next (s.raiseUnsupported opcode)

/-- `Tick()` (R81): in FAULTED nothing changes (R86); a fetch out of bounds faults before it reads or advances (R83);
otherwise fetch, advance, decode, execute. -/
def tick (s : State) : Host.Outcome State Fault Refusal :=
  match s.fault with
  | some _ => .next s
  | none =>
    if s.fetchInBounds then
      match fetchOpcode s with
      | .error f => .fault f
      | .ok opcode => executeOpcode opcode s.advancePc
    else .next s.raiseFetch

/-- A word put into memory, high byte first (R44): what a LOAD of its two bytes at `a` would leave there. -/
def State.placeWord (s : State) (a : Nat) (w : Word) : State :=
  (s.putByte a (w.extractLsb' 8 8)).putByte (a + 1) (w.extractLsb' 0 8)

/-- A state from which a fetch can happen: nothing latched, and `PC` at the entry point 0x200 where it pointed at no
whole word of memory. -/
def State.fetchable (s : State) : State :=
  { s with fault := none, pc := if s.fetchInBounds then s.pc else 0x0200 }

end Sys2Proof.Machine
end

