-- ==== Sys2Proof/Machine/Step.lean ====
section
/-! DEFINITION. One step of the machine is one TICK (R81). -/

namespace Sys2Proof.Machine

/-- One TICK. The record a faulting TICK returns is the one `State.fault` then holds (R81, R122). -/
def step (s : State) : Host.Outcome State Fault Refusal := tick s

/-- `s` with the instruction of spec/opcode_table.json whose low `nbits` bits are `w` stored where the next step
fetches (notes/assumptions/14.md). -/
def State.withFetchWord (s : State) (nbits w : Nat) : State :=
  s.fetchable.placeWord s.fetchable.pc.toNat (opcodeOfTable nbits w)

end Sys2Proof.Machine
end

