-- ==== Sys2Proof/Machine/Stack.lean ====
section
/-! DEFINITION. The internal primitives push and pop (R102, R103). No instruction and no command calls them (R104).
Each takes the address and the opcode of the instruction that would call it, for the fault record (R121). -/

namespace Sys2Proof.Machine

/-- `STACK[k] <- w`. -/
def State.setStack (s : State) (k : Nat) (h : k < 16) (w : Word) : State := { s with stack := s.stack.set k w h }

/-- `SP <- b`. -/
def State.setSp (s : State) (b : Byte) : State := { s with sp := b }

/-- `raise STACK_BOUNDS(info = SP)` (R121). -/
def State.raiseStack (s : State) (a opcode : Word) : State :=
  s.raise .stackBounds a opcode (s.sp.setWidth 16)

/-- `push(value)`: "writes at index SP then increments SP"; with `SP >= 16` it faults and writes nothing (R102). -/
def push (a opcode value : Word) (s : State) : State :=
  if h : s.sp.toNat < 16 then (s.setStack s.sp.toNat h value).setSp (s.sp + 1)
  else s.raiseStack a opcode

/-- `pop()`: "decrements SP then reads at the new SP"; the entry keeps its value; with `SP = 0` or `SP > 16` it
faults, changes nothing else and returns nothing (R103). -/
def pop (a opcode : Word) (s : State) : Option Word × State :=
  if h : 0 < s.sp.toNat ∧ s.sp.toNat ≤ 16 then
    (some (s.stack[s.sp.toNat - 1]'(by omega)), s.setSp (s.sp - 1))
  else (none, s.raiseStack a opcode)

end Sys2Proof.Machine
end

