-- ==== Sys2Proof/Machine/Commands.lean ====
section
/-! DEFINITION. The host's five commands (R105): what each does to the state and what the host gets back. Each is one
atomic transition (R7). -/

namespace Sys2Proof.Machine

/-- The commands of R105, with their arguments. -/
inductive Command where
  | reset
  /-- A byte sequence of any length. -/
  | load (bytes : List Byte)
  | tick
  | getDisplay
  | timerTick
  deriving DecidableEq, Repr

/-- What a command hands back (R8, R105). -/
inductive Response where
  /-- RESET and TIMER_TICK return nothing. -/
  | done
  | ok
  /-- The latched fault record. -/
  | fault (r : FaultRecord)
  /-- `rejected LOAD_BOUNDS(len)`, carrying the offending length (R107). -/
  | rejectedLoad (len : Nat)
  /-- The 2048 booleans of `D` (R108). -/
  | display (pixels : List Bool)
  deriving DecidableEq, Repr

/-- The numbers of R120. -/
def FaultCode.number : FaultCode → BitVec 3
  | .fetchBounds => 2
  | .unsupportedOpcode => 3
  | .stackBounds => 4
  | .spriteBounds => 5

/-- The error number of a response: 0 means no error, 1 is LOAD_BOUNDS (R120). -/
def Response.errorNumber : Response → BitVec 3
  | .done => 0
  | .ok => 0
  | .fault r => r.code.number
  | .rejectedLoad _ => 1
  | .display _ => 0

/-- RESET: every item at its value of R35, whatever the state was; the parameters are not state and stay
(R140, R141, R147). -/
def resetCommand (s : State) : State := State.resetWith s.params

/-- LOAD (R106, R107): in FAULTED nothing changes and the latched record comes back; bytes that do not fit are
rejected whole; others are copied to 0x200 on. -/
def loadCommand (bytes : List Byte) (s : State) : Host.Outcome (State × Response) Fault Refusal :=
  match s.fault with
  | some r => .next (s, .fault r)
  | none =>
    if 0x200 + bytes.length > 4096 then .next (s, .rejectedLoad bytes.length)
    else
      match memWriteMany s 0x200 bytes with
      | .error f => .fault f
      | .ok t => .next (t, .ok)

/-- What TICK returns: `ok`, or the record now latched, a fresh one or an earlier one (R81, R86, R122). -/
def tickResponse (s : State) : Response :=
  match s.fault with
  | none => .ok
  | some r => .fault r

/-- TICK, as the host sees it (R81). -/
def tickCommand (s : State) : Host.Outcome (State × Response) Fault Refusal :=
  match step s with
  | .next t => .next (t, tickResponse t)
  | .fault f => .fault f
  | .refused r => .refused r

/-- `D[0], D[1], ..., D[2047]`: the rows one after another (R28, R108). -/
def displayView (s : State) : List Bool := s.display.toList.flatMap Vector.toList

/-- A timer one lower, stopping at zero (R110). -/
def countDown (t : Byte) : Byte := if t.toNat > 0 then t - 1 else t

/-- TIMER_TICK: both timers count down, in READY and in FAULTED (R110). -/
def timerTickCommand (s : State) : State := { s with dt := countDown s.dt, st := countDown s.st }

/-- One command: the state after it and what the host gets (R105). -/
def perform (c : Command) (s : State) : Host.Outcome (State × Response) Fault Refusal :=
  match c with
  | .reset => .next (resetCommand s, .done)
  | .load bytes => loadCommand bytes s
  | .tick => tickCommand s
  | .getDisplay => .next (s, .display (displayView s))
  | .timerTick => .next (timerTickCommand s, .done)

/-- Commands one after another (R49 (c)). -/
def performAll : List Command → State → Host.Outcome State Fault Refusal
  | [], s => .next s
  | c :: cs, s =>
    match perform c s with
    | .next (t, _) => performAll cs t
    | .fault f => .fault f
    | .refused r => .refused r

end Sys2Proof.Machine
end

