-- ==== Sys2Proof/Safety.lean ====
section
/-! DEFINITION. The terms claims are stated in: READY and FAULTED, the two ways a run ends, the states the host can
bring about, and what holds in all of them. -/

namespace Sys2Proof.Machine

/-- READY: the fault latch is empty (R80). -/
abbrev Ready (s : State) : Prop := s.fault = none

/-- FAULTED (R80): the run is over, and a claim about a finished run counts it as failed (D20). -/
abbrev Faulted (s : State) : Prop := s.fault ≠ none

/-- READY, and the next fetch is in bounds and gives the word `w`, high byte first (R82, R83). -/
structure Fetches (s : State) (w : Word) : Prop where
  ready : Ready s
  inBounds : s.pc.toNat + 1 ≤ 4095
  high : memRead s s.pc.toNat = .ok (w.extractLsb' 8 8)
  low : memRead s (s.pc.toNat + 1) = .ok (w.extractLsb' 0 8)

/-- `done at a`: READY, at a jump to itself (R87). -/
def DoneAt (a : Addr) (s : State) : Prop :=
  s.pc = immAddr a ∧ a.toNat ≤ 0xFFE ∧ Fetches s (0x1000#16 ||| a.setWidth 16)

/-- The launch state of a ROM: RESET, then one LOAD that returns ok (R142). -/
def LaunchState (p : Params) (rom : List Byte) (s : State) : Prop :=
  loadCommand rom (State.resetWith p) = .next (s, .ok)

/-- The states the host can bring about from RESET by any sequence of commands (R33, R111). -/
inductive Reachable (p : Params) : State → Prop where
  | reset : Reachable p (State.resetWith p)
  | command (c : Command) (r : Response) {s t : State} :
      Reachable p s → perform c s = .next (t, r) → Reachable p t

/-- `touched(k)` for `k = px + 64 py` of a DRW at state `s` (R98): the sprite bit that maps to the pixel is 1. -/
def Touched (s : State) (x y : Reg) (n : Nibble) (px py : Nat) : Prop :=
  ∃ dx row : Nat, ∃ b : Byte,
    (dx : Int) = ((px : Int) - (s.getV x).toNat) % 64 ∧ (row : Int) = ((py : Int) - (s.getV y).toNat) % 32 ∧
    dx < 8 ∧ row < n.toNat ∧ memRead s (s.i.toNat + row) = .ok b ∧ b.getLsbD (7 - dx) = true

/-- The table of R35, item by item. -/
structure ResetTable (s : State) : Prop where
  v : ∀ x : Reg, s.getV x = 0x00
  i : s.i = 0x0000
  pc : s.pc = 0x0200
  stack : ∀ k : Fin 16, s.stack[k.val] = 0x0000
  sp : s.sp = 0x00
  font : ∀ a : Fin 80, memRead s a.val = .ok s.params.font[a.val]
  mem : ∀ a : Nat, 80 ≤ a → a ≤ 4095 → memRead s a = .ok 0x00
  display : ∀ k : Fin 2048, Display.entry s.display k = false
  keys : ∀ k : Fin 16, s.keys[k.val] = false
  dt : s.dt = 0x00
  st : s.st = 0x00
  fault : s.fault = none

/-- The invariants of R33, and with `mem_wf` the canonical form of memory, the model's own (notes/assumptions/12.md). -/
structure CoreInv (s : State) : Prop where
  pc_le : s.pc.toNat ≤ 0x1000
  i_le : s.i.toNat ≤ 0x0FFF
  sp_zero : s.sp = 0
  stack_zero : ∀ k : Fin 16, s.stack[k.val] = 0
  dt_zero : s.dt = 0
  st_zero : s.st = 0
  keys_false : ∀ k : Fin 16, s.keys[k.val] = false
  low_memory : ∀ a : Nat, a < 0x200 → memRead s a = .ok (unlisted s.params a)
  mem_wf : Memory.wf s.params s.mem = true

end Sys2Proof.Machine
end

