-- ==== Sys2Proof/Certificates/Slice0/Obligations.lean ====
section
/-! DEFINITION. The statements for the provers. A field update such as `{ t with pc := s.pc } = s` says that `t`
differs from `s` in the field named and in nothing else. -/

open Sys2Proof Sys2Proof.Machine

/-! ## Encoding -/

/-- 30_encoding.md section 3 and 5: no bit of an encoding is dropped, for every instruction. -/
def Obligations.DecodeEncodeRoundTrip : Prop :=
  ∀ (i : Instr) (rest : List Byte), i.wellFormed = true →
    decodeWord (encode i) = .ok i ∧ decode (encodeBytes i ++ rest) = .ok (i, rest)

/-- 30_encoding.md section 3: each supported word has one meaning, and that meaning encodes to the word. -/
def Obligations.EncodeDecodeRoundTrip : Prop :=
  ∀ (w : Word) (i : Instr), decodeWord w = .ok i → encode i = w

/-- 30_encoding.md section 3: "The rows are disjoint, so no priority between them is needed". -/
def Obligations.OpcodeRowsDisjoint : Prop :=
  ∀ w : Word, (opcodeTable.filter fun r => r.selects w).length ≤ 1

/-- 30_encoding.md section 5: the operand ranges of the assembler, and the word each line encodes as, as a number.
That a line out of range is an error is the spec's decision D21 (notes/assumptions/17.md); that DRW's word holds `y` in
bits 7:4 and the nibble in bits 3:0 is the spec's own reading of `DXYN` (notes/assumptions/19.md). -/
def Obligations.AssemblerRangesAndWords : Prop :=
  (AsmLine.cls.assemble.map encode = some 0x00E0) ∧
  (∀ a : Nat, (a ≤ 0xFFF → ((AsmLine.jp a).assemble.map fun i => (encode i).toNat) = some (0x1000 + a)) ∧
    (0xFFF < a → (AsmLine.jp a).assemble = none)) ∧
  (∀ x b : Nat,
    (x ≤ 15 ∧ b ≤ 0xFF → ((AsmLine.ld x b).assemble.map fun i => (encode i).toNat) = some (0x6000 + 256 * x + b)) ∧
    (¬(x ≤ 15 ∧ b ≤ 0xFF) → (AsmLine.ld x b).assemble = none)) ∧
  (∀ x b : Nat,
    (x ≤ 15 ∧ b ≤ 0xFF → ((AsmLine.add x b).assemble.map fun i => (encode i).toNat) = some (0x7000 + 256 * x + b)) ∧
    (¬(x ≤ 15 ∧ b ≤ 0xFF) → (AsmLine.add x b).assemble = none)) ∧
  (∀ a : Nat, (a ≤ 0xFFF → ((AsmLine.ldI a).assemble.map fun i => (encode i).toNat) = some (0xA000 + a)) ∧
    (0xFFF < a → (AsmLine.ldI a).assemble = none)) ∧
  (∀ x y n : Nat,
    (x ≤ 15 ∧ y ≤ 15 ∧ n ≤ 15 →
      ((AsmLine.drw x y n).assemble.map fun i => (encode i).toNat) = some (0xD000 + 256 * x + 16 * y + n)) ∧
    (¬(x ≤ 15 ∧ y ≤ 15 ∧ n ≤ 15) → (AsmLine.drw x y n).assemble = none))

/-- 30_encoding.md section 7: words of each family written out from the spec decode to what they stand for.
Which nibble of a DRW word is `y` and which `n` is the spec's own reading of `DXYN` (notes/assumptions/19.md). -/
def Obligations.WorkedWordsDecode : Prop :=
  decode [0x00, 0xE0] = .ok (.cls, []) ∧ decode [0x12, 0x34] = .ok (.jp 0x234, []) ∧
  decode [0x6A, 0x05] = .ok (.ld 10 0x05, []) ∧ decode [0x7F, 0xFF] = .ok (.add 15 0xFF, []) ∧
  decode [0xA2, 0x0C] = .ok (.ldI 0x20C, []) ∧ decode [0xD0, 0x12] = .ok (.drw 0 1 2, []) ∧
  decode [0xDF, 0xF0] = .ok (.drw 15 15 0, []) ∧ decode [0x00, 0xEE] = .error (.unsupported 0x00EE) ∧
  decode [0x00, 0x00] = .error (.unsupported 0x0000)

/-! ## The cycle -/

/-- 40_cycle.md sections 2 to 4: the per-instruction statements reach a run through this one. -/
def Obligations.StepRunsDecodedInstruction : Prop :=
  ∀ (s : State) (hi lo : Byte) (i : Instr), i.wellFormed = true → s.fault = none → s.pc.toNat + 1 ≤ 4095 →
    memRead s s.pc.toNat = .ok hi → memRead s (s.pc.toNat + 1) = .ok lo → decode [hi, lo] = .ok (i, []) →
    step s = exec i (s.setPc (s.pc + 2))

/-- R89: "A TICK always terminates", and "in every state every command has an outcome": no step and no command ends in
a fault or a refusal of the model. "A program may loop for ever": some READY state stays READY for any number of
TICKs. -/
def Obligations.EveryCommandHasAnOutcome : Prop :=
  (∀ s : State, ∃ t, step s = .next t) ∧ (∀ (c : Command) (s : State), ∃ t r, perform c s = .next (t, r)) ∧
  ∃ s : State, ∀ k : Nat, ∃ t, core.run k s = .next t ∧ t.fault = none

/-- 40_cycle.md section 3: when the fetch bound fails, what is latched, and that the last word of memory is still
fetched. That PC keeps its value is the spec's decision D5 (notes/assumptions/5.md); the record's fields, its zero
opcode and info among them, are those of 60_exceptions.md section 1, the spec's decision D4 (notes/assumptions/16.md). -/
def Obligations.FetchOutOfBoundsFaults : Prop :=
  (∀ s : State, s.fault = none → 4095 < s.pc.toNat + 1 →
    step s = .next { s with fault := some ⟨.fetchBounds, s.pc, 0x0000, 0x0000⟩ }) ∧
  (∀ (s : State) (w : Word), s.pc = 0x0FFE → Fetches s w →
    ∃ t, step s = .next t ∧ (w &&& 0xF000#16 ≠ 0x1000#16 → t.pc = 0x1000#16) ∧
      ∀ r, t.fault = some r → r.code ≠ .fetchBounds)

/-- 46_unsupported.md: every word outside the six patterns faults, and execute changes nothing else. That PC holds
`a + 2` is the spec's decision D5 (notes/assumptions/5.md); the record's fields, its zero info among them, are those of
60_exceptions.md section 1, the spec's decision D4 (notes/assumptions/16.md). -/
def Obligations.UnsupportedOpcodeFaults : Prop :=
  ∀ (s : State) (w : Word), Fetches s w → w ≠ 0x00E0#16 →
    (∀ d ∈ [0x1000#16, 0x6000#16, 0x7000#16, 0xA000#16, 0xD000#16], w &&& 0xF000#16 ≠ d) →
    step s = .next { s with pc := s.pc + 2, fault := some ⟨.unsupportedOpcode, s.pc, w, 0x0000⟩ }

/-- 40_cycle.md section 5: a faulted core stays as it is, TICK after TICK, and returns the same record. The latch is
the spec's decision D3 (notes/assumptions/4.md). -/
def Obligations.FaultedTickChangesNothing : Prop :=
  ∀ (s : State) (r : FaultRecord), s.fault = some r →
    step s = .next s ∧ perform .tick s = .next (s, .fault r) ∧ ∀ k : Nat, core.run k s = .next s

/-- 10_state.md section 3 and 60_exceptions.md section 3: no sequence of commands without RESET changes a latched
record (the spec's decision D3, notes/assumptions/4.md). -/
def Obligations.LatchedRecordStaysUntilReset : Prop :=
  ∀ (cs : List Command) (s t : State) (r : FaultRecord), s.fault = some r → Command.reset ∉ cs →
    performAll cs s = .next t → t.fault = some r ∧ { t with dt := s.dt, st := s.st } = s

/-- 40_cycle.md section 2 and 60_exceptions.md section 2: what TICK returns is `ok` or the record it latched. -/
def Obligations.TickReturnsWhatItLatches : Prop :=
  ∀ s : State, s.fault = none → ∃ t r, perform .tick s = .next (t, r) ∧ step s = .next t ∧
    ((r = .ok ∧ t.fault = none) ∨ ∃ f, r = .fault f ∧ t.fault = some f)

/-- 40_cycle.md section 6: a READY core at a jump to itself never changes again. -/
def Obligations.DoneIsAFixedPoint : Prop :=
  ∀ (a : Addr) (s : State), DoneAt a s → step s = .next s ∧ ∀ k : Nat, core.run k s = .next s

/-! ## The instructions, from fetch to effect -/

/-- R90, for every state that fetches the word 00E0. -/
def Obligations.TickClearsDisplay : Prop :=
  ∀ s : State, Fetches s 0x00E0#16 → ∃ t, step s = .next t ∧
    (∀ k : Fin 2048, Display.entry t.display k = false) ∧ t.pc = s.pc + 2 ∧
    { t with display := s.display, pc := s.pc } = s

/-- R91, for every state that fetches a word `1NNN`, and the TICK after a jump to 0xFFF. -/
def Obligations.TickJumps : Prop :=
  ∀ (s : State) (w : Word), Fetches s w → w &&& 0xF000#16 = 0x1000#16 → ∃ t, step s = .next t ∧
    t.pc = (w.extractLsb' 0 12).setWidth 16 ∧ t.pc.toNat ≤ 0xFFF ∧ { t with pc := s.pc } = s ∧
    (w.extractLsb' 0 12 = 0xFFF → ∃ u r, step t = .next u ∧ u.fault = some r ∧ r.code = .fetchBounds ∧ r.pc = 0x0FFF)

/-- R92, for every state that fetches a word `6XKK`; `x` is any number with `x = opcode[11:8]`. -/
def Obligations.TickLoadsImmediate : Prop :=
  ∀ (s : State) (w : Word) (x : Reg), Fetches s w → w &&& 0xF000#16 = 0x6000#16 → x.val = (w.extractLsb' 8 4).toNat →
    ∃ t, step s = .next t ∧ t.getV x = w.extractLsb' 0 8 ∧ (∀ y : Reg, y ≠ x → t.getV y = s.getV y) ∧
      t.pc = s.pc + 2 ∧ { t with v := s.v, pc := s.pc } = s

/-- R93, for every state that fetches a word `7XKK`: the sum wraps and no other register, VF among them, changes. -/
def Obligations.TickAddsImmediate : Prop :=
  ∀ (s : State) (w : Word) (x : Reg), Fetches s w → w &&& 0xF000#16 = 0x7000#16 → x.val = (w.extractLsb' 8 4).toNat →
    ∃ t, step s = .next t ∧ (t.getV x).toNat = ((s.getV x).toNat + (w.extractLsb' 0 8).toNat) % 256 ∧
      (∀ y : Reg, y ≠ x → t.getV y = s.getV y) ∧ t.pc = s.pc + 2 ∧ { t with v := s.v, pc := s.pc } = s

/-- R94, for every state that fetches a word `ANNN`: all 16 bits of `I` are written. -/
def Obligations.TickSetsIndex : Prop :=
  ∀ (s : State) (w : Word), Fetches s w → w &&& 0xF000#16 = 0xA000#16 → ∃ t, step s = .next t ∧
    t.i = (w.extractLsb' 0 12).setWidth 16 ∧ t.i.toNat = (w.extractLsb' 0 12).toNat ∧ t.pc = s.pc + 2 ∧
    { t with i := s.i, pc := s.pc } = s

/-- 45_drw.md section 3: a DRW whose sprite runs past 0xFFF draws nothing and latches its own address, its word and
`I`. The fault is the spec's decision D6, the PC its decision D5 (notes/assumptions/5.md, 6.md), the record's fields its
decision D4 (60_exceptions.md section 1, notes/assumptions/16.md). That `n` is `opcode[3:0]` is the spec's own reading of
`DXYN` (notes/assumptions/19.md). -/
def Obligations.TickSpriteOutOfBoundsFaults : Prop :=
  ∀ (s : State) (w : Word), Fetches s w → w &&& 0xF000#16 = 0xD000#16 → 4096 < s.i.toNat + (w.extractLsb' 0 4).toNat →
    step s = .next { s with pc := s.pc + 2, fault := some ⟨.spriteBounds, s.pc, w, s.i⟩ }

/-! ## The instructions, in `exec` -/

/-- 41_cls.md: CLS completes in every state, and its frame. -/
def Obligations.ClsCompletes : Prop :=
  ∀ s : State, ∃ t, exec .cls s = .next t ∧ (∀ x y : Nat, Display.pixel t.display x y = false) ∧
    { t with display := s.display } = s ∧ ∀ a : Nat, memRead t a = memRead s a

/-- 42_jp.md: JP completes in every state, and its frame. -/
def Obligations.JpCompletes : Prop :=
  ∀ (nnn : Addr) (s : State), ∃ t, exec (.jp nnn) s = .next t ∧ t.pc.toNat = nnn.toNat ∧
    { t with pc := s.pc } = s ∧ ∀ a : Nat, memRead t a = memRead s a

/-- 43_ld_add_imm.md: LD Vx completes in every state for every register, VF among them, and its frame. -/
def Obligations.LdCompletes : Prop :=
  ∀ (x : Reg) (kk : Byte) (s : State), ∃ t, exec (.ld x kk) s = .next t ∧
    (∀ y : Reg, t.getV y = if y = x then kk else s.getV y) ∧ { t with v := s.v } = s ∧
    ∀ a : Nat, memRead t a = memRead s a

/-- 43_ld_add_imm.md: ADD Vx completes in every state for every register, VF among them, and its frame. -/
def Obligations.AddCompletes : Prop :=
  ∀ (x : Reg) (kk : Byte) (s : State), ∃ t, exec (.add x kk) s = .next t ∧
    (∀ y : Reg, (t.getV y).toNat = if y = x then ((s.getV x).toNat + kk.toNat) % 256 else (s.getV y).toNat) ∧
    { t with v := s.v } = s ∧ ∀ a : Nat, memRead t a = memRead s a

/-- 44_ld_i.md: LD I completes in every state, and its frame. -/
def Obligations.LdICompletes : Prop :=
  ∀ (nnn : Addr) (s : State), ∃ t, exec (.ldI nnn) s = .next t ∧ t.i.toNat = nnn.toNat ∧
    { t with i := s.i } = s ∧ ∀ a : Nat, memRead t a = memRead s a

/-- 45_drw.md section 4: the closed form of a DRW whose sprite lies in memory, in every state and both draw modes,
and its frame. The closed form is the spec's derivation; the bit-to-pixel map and the row wrap are its decision D24
(notes/assumptions/7.md). -/
def Obligations.DrawClosedForm : Prop :=
  ∀ (x y : Reg) (n : Nibble) (s : State), s.i.toNat + n.toNat ≤ 4096 → ∃ t, exec (.drw x y n) s = .next t ∧
    (∀ px py : Nat, px < 64 → py < 32 →
      (Touched s x y n px py → s.params.drawMode = .set → Display.pixel t.display px py = true) ∧
      (Touched s x y n px py → s.params.drawMode = .xor →
        Display.pixel t.display px py = !Display.pixel s.display px py) ∧
      (¬ Touched s x y n px py → Display.pixel t.display px py = Display.pixel s.display px py)) ∧
    ((∃ px py, px < 64 ∧ py < 32 ∧ Touched s x y n px py ∧ Display.pixel s.display px py = true) →
      t.getV vf = 0x01) ∧
    ((¬ ∃ px py, px < 64 ∧ py < 32 ∧ Touched s x y n px py ∧ Display.pixel s.display px py = true) →
      t.getV vf = 0x00) ∧
    (∀ z : Reg, z ≠ vf → t.getV z = s.getV z) ∧ { t with display := s.display, v := s.v } = s ∧
    ∀ a : Nat, memRead t a = memRead s a

/-- 45_drw.md section 3, in `exec`: where DRW traps instead of completing (the spec's decision D6,
notes/assumptions/6.md). Its own address is `PC - 2` after the advance of fetch (notes/assumptions/8.md); the record's
fields are the spec's decision D4 (60_exceptions.md section 1, notes/assumptions/16.md), and where its word holds `y` and
`n` is the spec's own reading of `DXYN` (notes/assumptions/19.md). -/
def Obligations.DrawTrapsOutOfBounds : Prop :=
  ∀ (x y : Reg) (n : Nibble) (s : State), 4096 < s.i.toNat + n.toNat →
    exec (.drw x y n) s = .next { s with fault := some ⟨.spriteBounds, s.pc - 2, encode (.drw x y n), s.i⟩ }

/-- 45_drw.md section 4 and 95_test_vectors.md part 4: the same DRW twice, its coordinates not in VF. In XOR the
display is what it was before the first; in SET the second changes nothing more. The second reports a collision
exactly when the sprite has a 1 bit, in SET always and in XOR on a clear display. Which pixels the sprite touches is the
bit-to-pixel map and the row wrap of the spec's decision D24 (notes/assumptions/7.md). -/
def Obligations.DrawTwice : Prop :=
  ∀ (x y : Reg) (n : Nibble) (s : State), x ≠ vf → y ≠ vf → s.i.toNat + n.toNat ≤ 4096 →
    ∃ t u, exec (.drw x y n) s = .next t ∧ exec (.drw x y n) t = .next u ∧
      (s.params.drawMode = .xor → u.display = s.display) ∧
      (s.params.drawMode = .set → u.display = t.display ∧
        ((∃ px py, px < 64 ∧ py < 32 ∧ Touched s x y n px py) ↔ u.getV vf = 0x01)) ∧
      (s.params.drawMode = .xor → (∀ k : Fin 2048, Display.entry s.display k = false) →
        ((∃ px py, px < 64 ∧ py < 32 ∧ Touched s x y n px py) ↔ u.getV vf = 0x01))

/-- 45_drw.md section 4: the draw mode decides the display only, and only where a collision is. Everything else after
the DRW is the same, whether it drew or faulted, and a pixel that differs is touched by the sprite and was lit before. Which
pixels are touched is the spec's decision D24 (notes/assumptions/7.md). -/
def Obligations.DrawModesAgreeOnFlag : Prop :=
  ∀ (x y : Reg) (n : Nibble) (s t u : State) (m : DrawMode),
    exec (.drw x y n) s = .next t →
    exec (.drw x y n) { s with params := { s.params with drawMode := m } } = .next u →
    { u with display := t.display, params := t.params } = t ∧
    u.params = { s.params with drawMode := m } ∧ t.params = s.params ∧
    ∀ px py : Nat, Display.pixel u.display px py ≠ Display.pixel t.display px py →
      Touched s x y n px py ∧ Display.pixel s.display px py = true

/-- 45_drw.md section 4: "In `SET` mode DRW never turns a pixel off; only CLS and RESET do", over every TICK. -/
def Obligations.SetModeNeverUnlights : Prop :=
  ∀ (s t : State), s.params.drawMode = .set → ¬ Fetches s 0x00E0#16 → step s = .next t →
    ∀ k : Fin 2048, Display.entry s.display k = true → Display.entry t.display k = true

/-! ## Frames and whole-machine rules -/

/-- What no instruction changes, and what each family leaves: `V` by JP, LD I and CLS; all of `V` but `Vx` by LD and
ADD, all but VF by DRW; `I` by all but LD I; PC by all but JP; the display by all but CLS and DRW; the latch by all
but a DRW out of bounds; every byte of memory, the stack, the keys, the timers and the parameters by all.
That a DRW out of bounds faults and leaves `V` and the display is the spec's decision D6 (notes/assumptions/6.md). -/
def Obligations.ExecFrame : Prop :=
  ∀ (i : Instr) (s t : State), exec i s = .next t →
    (∀ a : Nat, memRead t a = memRead s a) ∧ t.stack = s.stack ∧ t.sp = s.sp ∧ t.keys = s.keys ∧ t.dt = s.dt ∧
    t.st = s.st ∧ t.params = s.params ∧
    (match i with
     | .cls => t.v = s.v ∧ t.i = s.i ∧ t.pc = s.pc ∧ t.fault = s.fault
     | .jp _ => t.v = s.v ∧ t.i = s.i ∧ t.display = s.display ∧ t.fault = s.fault
     | .ld x _ => (∀ y : Reg, y ≠ x → t.getV y = s.getV y) ∧ t.i = s.i ∧ t.pc = s.pc ∧ t.display = s.display ∧
         t.fault = s.fault
     | .add x _ => (∀ y : Reg, y ≠ x → t.getV y = s.getV y) ∧ t.i = s.i ∧ t.pc = s.pc ∧ t.display = s.display ∧
         t.fault = s.fault
     | .ldI _ => t.v = s.v ∧ t.pc = s.pc ∧ t.display = s.display ∧ t.fault = s.fault
     | .drw _ _ n => (∀ y : Reg, y ≠ vf → t.getV y = s.getV y) ∧ t.i = s.i ∧ t.pc = s.pc ∧
         (s.i.toNat + n.toNat ≤ 4096 → t.fault = s.fault) ∧
         (4096 < s.i.toNat + n.toNat → t.v = s.v ∧ t.display = s.display))

/-- 20_memory.md section 3 and 40_cycle.md section 2: a TICK never writes memory, and never touches the stack, the
keys or the timers. -/
def Obligations.TickKeepsMemoryAndDormantState : Prop :=
  ∀ s : State, ∃ t, step s = .next t ∧ t.mem = s.mem ∧ (∀ a : Nat, memRead t a = memRead s a) ∧
    t.stack = s.stack ∧ t.sp = s.sp ∧ t.keys = s.keys ∧ t.dt = s.dt ∧ t.st = s.st ∧ t.params = s.params

/-- 95_test_vectors.md part 4: a TICK that returns ok moves PC on by two or to a jump's target, and changes at most
one thing besides. -/
def Obligations.OkTickChangesOneThing : Prop :=
  ∀ s t : State, s.fault = none → step s = .next t → t.fault = none →
    (t.pc = s.pc + 2 ∨ ∃ w, Fetches s w ∧ w &&& 0xF000#16 = 0x1000#16 ∧ t.pc = (w.extractLsb' 0 12).setWidth 16) ∧
    ((∃ x b, { t with pc := s.pc } = s.setV x b) ∨ { t with pc := s.pc, i := s.i } = s ∨
      { t with pc := s.pc, display := s.display } = s ∨
      ∃ b, { t with pc := s.pc, display := s.display } = s.setV vf b)

/-- 60_exceptions.md section 2: a fault is precise. The record names the faulting instruction's own address, and
nothing but PC and the latch changed. What PC holds then is the spec's decision D5 (notes/assumptions/5.md), that a sprite
out of bounds faults and draws nothing its decision D6 (notes/assumptions/6.md), and what the record's opcode and info hold
its decision D4 (60_exceptions.md section 1, notes/assumptions/16.md). -/
def Obligations.FaultsArePrecise : Prop :=
  ∀ (s t : State) (r : FaultRecord), s.fault = none → step s = .next t → t.fault = some r →
    { t with pc := s.pc, fault := none } = s ∧ r.pc = s.pc ∧
    ((r.code = .fetchBounds ∧ t.pc = s.pc ∧ r.opcode = 0x0000 ∧ r.info = 0x0000) ∨
      (r.code = .unsupportedOpcode ∧ t.pc = s.pc + 2 ∧ Fetches s r.opcode ∧ r.info = 0x0000) ∨
      (r.code = .spriteBounds ∧ t.pc = s.pc + 2 ∧ Fetches s r.opcode ∧ r.info = s.i))

/-- 40_cycle.md section 7: a TICK "reads no key, no timer and no clock", and no stack: states that differ there only
answer states that differ there only. -/
def Obligations.DormantStateIsNeverRead : Prop :=
  ∀ (s t : State) (keys : Vector Bool 16) (dt st sp : Byte) (stack : Vector Word 16), step s = .next t →
    step { s with keys := keys, dt := dt, st := st, sp := sp, stack := stack } =
      .next { t with keys := keys, dt := dt, st := st, sp := sp, stack := stack }

/-- 20_memory.md section 3 and 95_test_vectors.md part 4: only RESET and an accepted LOAD change memory, and LOAD
never below 0x200. -/
def Obligations.OnlyResetAndLoadWriteMemory : Prop :=
  ∀ (c : Command) (s t : State) (r : Response), c ≠ .reset → perform c s = .next (t, r) →
    (∀ a : Nat, a < 0x200 → memRead t a = memRead s a) ∧
    ((∀ bytes : List Byte, c = .load bytes → r ≠ .ok) → t.mem = s.mem)

/-! ## Invariants -/

/-- 10_state.md section 6, at RESET, for every value of the parameters. The clause `mem_wf` of `CoreInv`, here and in the
statements below, is the model's own: the canonical form of its memory list (notes/assumptions/12.md). -/
def Obligations.ResetMeetsInvariants : Prop :=
  CoreInv State.reset ∧ ∀ p : Params, CoreInv (State.resetWith p)

/-- 10_state.md section 6: every step keeps the invariants. The clause `mem_wf` is the model's own
(notes/assumptions/12.md). -/
def Obligations.StepKeepsInvariants : Prop :=
  ∀ s t : State, CoreInv s → step s = .next t → CoreInv t ∧ t.params = s.params

/-- 10_state.md section 6: every command of the host keeps the invariants and the parameters, from every state that
meets them. The clause `mem_wf` is the model's own (notes/assumptions/12.md). -/
def Obligations.CommandsKeepInvariants : Prop :=
  ∀ (c : Command) (s t : State) (r : Response), CoreInv s → perform c s = .next (t, r) →
    CoreInv t ∧ t.params = s.params

/-- 10_state.md section 6: the invariants hold in every state reachable from RESET by any sequence of commands. The
clause `mem_wf` is the model's own (notes/assumptions/12.md). -/
def Obligations.ReachableStatesMeetInvariants : Prop :=
  ∀ (p : Params) (s : State), Reachable p s → CoreInv s ∧ s.params = p

/-- 47_stack_primitives.md: "the fault STACK_BOUNDS is never raised". -/
def Obligations.StackBoundsIsNeverRaised : Prop :=
  ∀ (p : Params) (s : State) (r : FaultRecord), Reachable p s → s.fault = some r → r.code ≠ .stackBounds

/-! ## RESET and the other commands -/

/-- R35, for the state the machine starts in and for RESET in any state, whatever the parameters. -/
def Obligations.ResetLeavesTheTable : Prop :=
  ResetTable State.reset ∧
  ∀ s : State, ∃ t, perform .reset s = .next (t, .done) ∧ ResetTable t ∧ t.params = s.params

/-- 70_reset_and_hazards.md section 2: a TICK with no program, and any TICK that runs into cleared memory, faults.
That PC then holds 0x0202 is the spec's decision D5 (notes/assumptions/5.md); the record's fields, its zero info among them,
are those of 60_exceptions.md section 1, the spec's decision D4 (notes/assumptions/16.md). -/
def Obligations.TickWithoutProgramFaults : Prop :=
  (∃ t, step State.reset = .next t ∧ t.fault = some ⟨.unsupportedOpcode, 0x0200, 0x0000, 0x0000⟩ ∧ t.pc = 0x0202 ∧
    { t with fault := none, pc := 0x0200 } = State.reset) ∧
  ∀ s : State, Fetches s 0x0000#16 →
    ∃ t, step s = .next t ∧ t.fault = some ⟨.unsupportedOpcode, s.pc, 0x0000, 0x0000⟩ ∧
      { t with fault := none, pc := s.pc } = s

/-- 48_host_operations.md section 2: an accepted LOAD writes its bytes at 0x200 and nothing else; one in FAULTED
changes nothing and returns the record (the spec's decision D11, notes/assumptions/11.md). -/
def Obligations.LoadPlacesBytes : Prop :=
  (∀ (bytes : List Byte) (s : State), s.fault = none → bytes.length ≤ 3584 →
    ∃ t, perform (.load bytes) s = .next (t, .ok) ∧ { t with mem := s.mem } = s ∧
      (∀ (k : Nat) (h : k < bytes.length), memRead t (0x200 + k) = .ok bytes[k]) ∧
      ∀ a : Nat, (a < 0x200 ∨ 0x200 + bytes.length ≤ a) → memRead t a = memRead s a) ∧
  ∀ (bytes : List Byte) (s : State) (r : FaultRecord), s.fault = some r →
    perform (.load bytes) s = .next (s, .fault r)

/-- R107: a LOAD longer than 3584 bytes is rejected whole, with its length, and leaves the core READY; one of at most
3584 bytes is accepted. -/
def Obligations.OversizedLoadIsRejected : Prop :=
  ∀ (bytes : List Byte) (s : State), s.fault = none →
    (0x200 + bytes.length > 4096 → perform (.load bytes) s = .next (s, .rejectedLoad bytes.length)) ∧
    (0x200 + bytes.length ≤ 4096 → ∃ t, perform (.load bytes) s = .next (t, .ok))

/-- 70_reset_and_hazards.md section 2: the launch state of a ROM that fits. That memory right after RESET is the empty
list is the model's own form (notes/assumptions/12.md). -/
def Obligations.LaunchStateOfARom : Prop :=
  ∀ (p : Params) (rom : List Byte), rom.length ≤ 3584 → ∃ s, LaunchState p rom s ∧ Reachable p s ∧
    { s with mem := [] } = State.resetWith p ∧
    (∀ (k : Nat) (h : k < rom.length), memRead s (0x200 + k) = .ok rom[k]) ∧
    ∀ a : Nat, (a < 0x200 ∨ 0x200 + rom.length ≤ a) → memRead s a = memRead (State.resetWith p) a

/-- R108: GET_DISPLAY in any state gives the 2048 entries in order, entry `x + 64 y` being pixel `(x, y)`, and
changes nothing. -/
def Obligations.DisplayViewIsRowMajor : Prop :=
  ∀ s : State, ∃ l : List Bool, perform .getDisplay s = .next (s, .display l) ∧ l.length = 2048 ∧
    (∀ k : Fin 2048, l[k.val]? = some (Display.entry s.display k)) ∧
    ∀ x y : Nat, x < 64 → y < 32 → l[x + 64 * y]? = some (Display.pixel s.display x y)

/-- 48_host_operations.md section 4: TIMER_TICK in any state counts each timer down and stops at zero (the spec's
decision D9, notes/assumptions/9.md). -/
def Obligations.TimerTickCountsDown : Prop :=
  ∀ s : State, ∃ t, perform .timerTick s = .next (t, .done) ∧ t.dt.toNat = s.dt.toNat - 1 ∧
    t.st.toNat = s.st.toNat - 1 ∧ { t with dt := s.dt, st := s.st } = s

/-- 47_stack_primitives.md: push for every `SP` of eight bits. The record's `pc` and `opcode` are arguments of the model's
push (notes/assumptions/10.md), since 60_exceptions.md section 1 puts them into the record, the spec's decision D4
(notes/assumptions/16.md). -/
def Obligations.PushWritesThenIncrements : Prop :=
  ∀ (a op value : Word) (s : State),
    (∀ h : s.sp.toNat < 16, (push a op value s).stack[s.sp.toNat] = value ∧
      (push a op value s).sp.toNat = s.sp.toNat + 1 ∧
      (∀ k : Fin 16, k.val ≠ s.sp.toNat → (push a op value s).stack[k.val] = s.stack[k.val]) ∧
      { push a op value s with stack := s.stack, sp := s.sp } = s) ∧
    (16 ≤ s.sp.toNat → push a op value s = { s with fault := some ⟨.stackBounds, a, op, s.sp.setWidth 16⟩ })

/-- 47_stack_primitives.md: pop for every `SP` of eight bits, and a push undone by a pop. That the entry keeps its
value, and the case `SP > 16`, are the spec's decision D18 (notes/assumptions/10.md); the record's fields are its decision
D4 (60_exceptions.md section 1, notes/assumptions/16.md), and its `pc` and `opcode` arguments of the model's pop. -/
def Obligations.PopDecrementsThenReads : Prop :=
  (∀ (a op : Word) (s : State),
    (∀ h : 0 < s.sp.toNat ∧ s.sp.toNat ≤ 16,
      (pop a op s).1 = some (s.stack[s.sp.toNat - 1]'(by omega)) ∧
      (pop a op s).2.sp.toNat = s.sp.toNat - 1 ∧ { (pop a op s).2 with sp := s.sp } = s) ∧
    (s.sp.toNat = 0 ∨ 16 < s.sp.toNat →
      pop a op s = (none, { s with fault := some ⟨.stackBounds, a, op, s.sp.setWidth 16⟩ }))) ∧
  ∀ (a op value : Word) (s : State), s.sp.toNat < 16 →
    (pop a op (push a op value s)).1 = some value ∧ (pop a op (push a op value s)).2.sp = s.sp
end

