-- ==== Sys2Proof/Laws/Syntax.lean ====
section
/-! SUPPORT. Every instruction is well-formed, and a well-formed assembler line is the spelling of its instruction. -/

namespace Sys2Proof

/-- The field types admit exactly the legal values. -/
theorem Instr.wellFormed_eq_true (i : Instr) : i.wellFormed = true := by
  cases i <;> simp [Instr.wellFormed, Instr.toAsm, AsmLine.wellFormed] <;> omega

@[simp] theorem regOfNat_val (x : Reg) : regOfNat x.val = x := by
  simp [regOfNat, Nat.mod_eq_of_lt x.isLt]

/-- The line that spells an instruction assembles to it. -/
theorem Instr.assemble_toAsm (i : Instr) : i.toAsm.assemble = some i := by
  have h : i.toAsm.wellFormed = true := i.wellFormed_eq_true
  rw [AsmLine.assemble, if_pos h]
  cases i <;> simp [Instr.toAsm, AsmLine.toInstr]

/-- A line that assembles is well-formed and is the spelling of what it assembles to. -/
theorem AsmLine.eq_toAsm_of_assemble {l : AsmLine} {i : Instr} (h : l.assemble = some i) :
    l.wellFormed = true ∧ l = i.toAsm := by
  unfold AsmLine.assemble at h
  split at h
  · rename_i hw
    refine ⟨hw, ?_⟩
    cases h
    cases l <;>
      simp_all [AsmLine.wellFormed, AsmLine.toInstr, Instr.toAsm, regOfNat, BitVec.toNat_ofNat,
        Nat.mod_eq_of_lt]
  · cases h

end Sys2Proof
end

