-- ==== Sys2Proof/Laws/Decode.lean ====
section
/-! SUPPORT. The decoder as the chain of R65's rows, the fields of the encoder's words, and the two byte orders. -/

namespace Sys2Proof

/-- Decode, row by row (R65). -/
theorem decodeWord_eq (w : Word) : decodeWord w =
    if w = 0x00E0#16 then .ok .cls
    else if w &&& 0xF000#16 = 0x1000#16 then .ok (.jp (fieldNNN w))
    else if w &&& 0xF000#16 = 0x6000#16 then .ok (.ld (fieldX w) (fieldKK w))
    else if w &&& 0xF000#16 = 0x7000#16 then .ok (.add (fieldX w) (fieldKK w))
    else if w &&& 0xF000#16 = 0xA000#16 then .ok (.ldI (fieldNNN w))
    else if w &&& 0xF000#16 = 0xD000#16 then .ok (.drw (fieldX w) (fieldY w) (fieldN w))
    else .error (.unsupported w) := by
  have hall : (w &&& 0xFFFF#16 = 0x00E0#16) = (w = 0x00E0#16) := by
    rw [show w &&& 0xFFFF#16 = w from BitVec.and_allOnes (x := w)]
  simp only [decodeWord, opcodeTable, List.find?_cons, List.find?_nil, OpcodeRow.selects]
  by_cases h0 : w = 0x00E0#16
  · simp [h0]
  · by_cases h1 : w &&& 0xF000#16 = 0x1000#16
    · simp [hall, h0, h1]
    · by_cases h6 : w &&& 0xF000#16 = 0x6000#16
      · simp [hall, h0, h6]
      · by_cases h7 : w &&& 0xF000#16 = 0x7000#16
        · simp [hall, h0, h7]
        · by_cases hA : w &&& 0xF000#16 = 0xA000#16
          · simp [hall, h0, hA]
          · by_cases hD : w &&& 0xF000#16 = 0xD000#16 <;> simp [hall, h0, h1, h6, h7, hA, hD]

/-- The first nibble decides the row of every instruction but CLS. -/
theorem and_F000_eq_iff (w : Word) (d : Nibble) :
    w &&& 0xF000#16 = d.setWidth 16 <<< 12 ↔ w.extractLsb' 12 4 = d := by
  constructor
  · intro h
    apply BitVec.eq_of_getElem_eq
    intro k hk
    have hb := congrArg (fun v => BitVec.getLsbD v (12 + k)) h
    interval_cases k <;> simpa using hb
  · rintro rfl
    apply BitVec.eq_of_getElem_eq
    intro k hk
    interval_cases k <;> simp

/-- The two bytes of a word, put together again. -/
theorem wordOfBytes_bytes (w : Word) : wordOfBytes (w.extractLsb' 8 8) (w.extractLsb' 0 8) = w := by
  apply BitVec.eq_of_getElem_eq
  intro k hk
  interval_cases k <;> simp [wordOfBytes]

theorem wordOfBytes_high (hi lo : Byte) : (wordOfBytes hi lo).extractLsb' 8 8 = hi := by
  apply BitVec.eq_of_getElem_eq
  intro k hk
  interval_cases k <;> simp [wordOfBytes]

theorem wordOfBytes_low (hi lo : Byte) : (wordOfBytes hi lo).extractLsb' 0 8 = lo := by
  apply BitVec.eq_of_getElem_eq
  intro k hk
  interval_cases k <;> simp [wordOfBytes]

/-- Decoding the bytes of a word, whatever follows them. -/
theorem decode_bytesOfWord (w : Word) (rest : List Byte) :
    decode (bytesOfWord w ++ rest) =
      match decodeWord w with
      | .ok i => .ok (i, rest)
      | .error e => .error e := by
  cases h : decodeWord w <;> simp [bytesOfWord, decode, wordOfBytes_bytes, h]

end Sys2Proof
end

