-- ==== Sys2Proof/Laws/State.lean ====
section
/-! SUPPORT. Each field of the state after each update, so that no proof unfolds a record update. -/

namespace Sys2Proof.Machine

section
variable (s : State)

@[simp] theorem State.setV_v (x : Reg) (b : Byte) : (s.setV x b).v = s.v.set x.val b := rfl
@[simp] theorem State.setV_i (x : Reg) (b : Byte) : (s.setV x b).i = s.i := rfl
@[simp] theorem State.setV_pc (x : Reg) (b : Byte) : (s.setV x b).pc = s.pc := rfl
@[simp] theorem State.setV_stack (x : Reg) (b : Byte) : (s.setV x b).stack = s.stack := rfl
@[simp] theorem State.setV_sp (x : Reg) (b : Byte) : (s.setV x b).sp = s.sp := rfl
@[simp] theorem State.setV_mem (x : Reg) (b : Byte) : (s.setV x b).mem = s.mem := rfl
@[simp] theorem State.setV_display (x : Reg) (b : Byte) : (s.setV x b).display = s.display := rfl
@[simp] theorem State.setV_keys (x : Reg) (b : Byte) : (s.setV x b).keys = s.keys := rfl
@[simp] theorem State.setV_dt (x : Reg) (b : Byte) : (s.setV x b).dt = s.dt := rfl
@[simp] theorem State.setV_st (x : Reg) (b : Byte) : (s.setV x b).st = s.st := rfl
@[simp] theorem State.setV_fault (x : Reg) (b : Byte) : (s.setV x b).fault = s.fault := rfl
@[simp] theorem State.setV_params (x : Reg) (b : Byte) : (s.setV x b).params = s.params := rfl

@[simp] theorem State.setI_v (w : Word) : (s.setI w).v = s.v := rfl
@[simp] theorem State.setI_i (w : Word) : (s.setI w).i = w := rfl
@[simp] theorem State.setI_pc (w : Word) : (s.setI w).pc = s.pc := rfl
@[simp] theorem State.setI_stack (w : Word) : (s.setI w).stack = s.stack := rfl
@[simp] theorem State.setI_sp (w : Word) : (s.setI w).sp = s.sp := rfl
@[simp] theorem State.setI_mem (w : Word) : (s.setI w).mem = s.mem := rfl
@[simp] theorem State.setI_display (w : Word) : (s.setI w).display = s.display := rfl
@[simp] theorem State.setI_keys (w : Word) : (s.setI w).keys = s.keys := rfl
@[simp] theorem State.setI_dt (w : Word) : (s.setI w).dt = s.dt := rfl
@[simp] theorem State.setI_st (w : Word) : (s.setI w).st = s.st := rfl
@[simp] theorem State.setI_fault (w : Word) : (s.setI w).fault = s.fault := rfl
@[simp] theorem State.setI_params (w : Word) : (s.setI w).params = s.params := rfl

@[simp] theorem State.setPc_v (w : Word) : (s.setPc w).v = s.v := rfl
@[simp] theorem State.setPc_i (w : Word) : (s.setPc w).i = s.i := rfl
@[simp] theorem State.setPc_pc (w : Word) : (s.setPc w).pc = w := rfl
@[simp] theorem State.setPc_stack (w : Word) : (s.setPc w).stack = s.stack := rfl
@[simp] theorem State.setPc_sp (w : Word) : (s.setPc w).sp = s.sp := rfl
@[simp] theorem State.setPc_mem (w : Word) : (s.setPc w).mem = s.mem := rfl
@[simp] theorem State.setPc_display (w : Word) : (s.setPc w).display = s.display := rfl
@[simp] theorem State.setPc_keys (w : Word) : (s.setPc w).keys = s.keys := rfl
@[simp] theorem State.setPc_dt (w : Word) : (s.setPc w).dt = s.dt := rfl
@[simp] theorem State.setPc_st (w : Word) : (s.setPc w).st = s.st := rfl
@[simp] theorem State.setPc_fault (w : Word) : (s.setPc w).fault = s.fault := rfl
@[simp] theorem State.setPc_params (w : Word) : (s.setPc w).params = s.params := rfl

@[simp] theorem State.setDisplay_v (d : Display) : (s.setDisplay d).v = s.v := rfl
@[simp] theorem State.setDisplay_i (d : Display) : (s.setDisplay d).i = s.i := rfl
@[simp] theorem State.setDisplay_pc (d : Display) : (s.setDisplay d).pc = s.pc := rfl
@[simp] theorem State.setDisplay_stack (d : Display) : (s.setDisplay d).stack = s.stack := rfl
@[simp] theorem State.setDisplay_sp (d : Display) : (s.setDisplay d).sp = s.sp := rfl
@[simp] theorem State.setDisplay_mem (d : Display) : (s.setDisplay d).mem = s.mem := rfl
@[simp] theorem State.setDisplay_display (d : Display) : (s.setDisplay d).display = d := rfl
@[simp] theorem State.setDisplay_keys (d : Display) : (s.setDisplay d).keys = s.keys := rfl
@[simp] theorem State.setDisplay_dt (d : Display) : (s.setDisplay d).dt = s.dt := rfl
@[simp] theorem State.setDisplay_st (d : Display) : (s.setDisplay d).st = s.st := rfl
@[simp] theorem State.setDisplay_fault (d : Display) : (s.setDisplay d).fault = s.fault := rfl
@[simp] theorem State.setDisplay_params (d : Display) : (s.setDisplay d).params = s.params := rfl

@[simp] theorem State.setMem_v (m : Memory) : (s.setMem m).v = s.v := rfl
@[simp] theorem State.setMem_i (m : Memory) : (s.setMem m).i = s.i := rfl
@[simp] theorem State.setMem_pc (m : Memory) : (s.setMem m).pc = s.pc := rfl
@[simp] theorem State.setMem_stack (m : Memory) : (s.setMem m).stack = s.stack := rfl
@[simp] theorem State.setMem_sp (m : Memory) : (s.setMem m).sp = s.sp := rfl
@[simp] theorem State.setMem_mem (m : Memory) : (s.setMem m).mem = m := rfl
@[simp] theorem State.setMem_display (m : Memory) : (s.setMem m).display = s.display := rfl
@[simp] theorem State.setMem_keys (m : Memory) : (s.setMem m).keys = s.keys := rfl
@[simp] theorem State.setMem_dt (m : Memory) : (s.setMem m).dt = s.dt := rfl
@[simp] theorem State.setMem_st (m : Memory) : (s.setMem m).st = s.st := rfl
@[simp] theorem State.setMem_fault (m : Memory) : (s.setMem m).fault = s.fault := rfl
@[simp] theorem State.setMem_params (m : Memory) : (s.setMem m).params = s.params := rfl

@[simp] theorem State.advancePc_v : (s.advancePc).v = s.v := rfl
@[simp] theorem State.advancePc_i : (s.advancePc).i = s.i := rfl
@[simp] theorem State.advancePc_pc : (s.advancePc).pc = s.pc + 2 := rfl
@[simp] theorem State.advancePc_stack : (s.advancePc).stack = s.stack := rfl
@[simp] theorem State.advancePc_sp : (s.advancePc).sp = s.sp := rfl
@[simp] theorem State.advancePc_mem : (s.advancePc).mem = s.mem := rfl
@[simp] theorem State.advancePc_display : (s.advancePc).display = s.display := rfl
@[simp] theorem State.advancePc_keys : (s.advancePc).keys = s.keys := rfl
@[simp] theorem State.advancePc_dt : (s.advancePc).dt = s.dt := rfl
@[simp] theorem State.advancePc_st : (s.advancePc).st = s.st := rfl
@[simp] theorem State.advancePc_fault : (s.advancePc).fault = s.fault := rfl
@[simp] theorem State.advancePc_params : (s.advancePc).params = s.params := rfl

@[simp] theorem State.putByte_v (a : Nat) (u : Byte) : (s.putByte a u).v = s.v := rfl
@[simp] theorem State.putByte_i (a : Nat) (u : Byte) : (s.putByte a u).i = s.i := rfl
@[simp] theorem State.putByte_pc (a : Nat) (u : Byte) : (s.putByte a u).pc = s.pc := rfl
@[simp] theorem State.putByte_stack (a : Nat) (u : Byte) : (s.putByte a u).stack = s.stack := rfl
@[simp] theorem State.putByte_sp (a : Nat) (u : Byte) : (s.putByte a u).sp = s.sp := rfl
@[simp] theorem State.putByte_mem (a : Nat) (u : Byte) : (s.putByte a u).mem = Memory.put (unlisted s.params a) a u s.mem := rfl
@[simp] theorem State.putByte_display (a : Nat) (u : Byte) : (s.putByte a u).display = s.display := rfl
@[simp] theorem State.putByte_keys (a : Nat) (u : Byte) : (s.putByte a u).keys = s.keys := rfl
@[simp] theorem State.putByte_dt (a : Nat) (u : Byte) : (s.putByte a u).dt = s.dt := rfl
@[simp] theorem State.putByte_st (a : Nat) (u : Byte) : (s.putByte a u).st = s.st := rfl
@[simp] theorem State.putByte_fault (a : Nat) (u : Byte) : (s.putByte a u).fault = s.fault := rfl
@[simp] theorem State.putByte_params (a : Nat) (u : Byte) : (s.putByte a u).params = s.params := rfl

@[simp] theorem State.raise_v (c : FaultCode) (a o n : Word) : (s.raise c a o n).v = s.v := rfl
@[simp] theorem State.raise_i (c : FaultCode) (a o n : Word) : (s.raise c a o n).i = s.i := rfl
@[simp] theorem State.raise_pc (c : FaultCode) (a o n : Word) : (s.raise c a o n).pc = s.pc := rfl
@[simp] theorem State.raise_stack (c : FaultCode) (a o n : Word) : (s.raise c a o n).stack = s.stack := rfl
@[simp] theorem State.raise_sp (c : FaultCode) (a o n : Word) : (s.raise c a o n).sp = s.sp := rfl
@[simp] theorem State.raise_mem (c : FaultCode) (a o n : Word) : (s.raise c a o n).mem = s.mem := rfl
@[simp] theorem State.raise_display (c : FaultCode) (a o n : Word) : (s.raise c a o n).display = s.display := rfl
@[simp] theorem State.raise_keys (c : FaultCode) (a o n : Word) : (s.raise c a o n).keys = s.keys := rfl
@[simp] theorem State.raise_dt (c : FaultCode) (a o n : Word) : (s.raise c a o n).dt = s.dt := rfl
@[simp] theorem State.raise_st (c : FaultCode) (a o n : Word) : (s.raise c a o n).st = s.st := rfl
@[simp] theorem State.raise_fault (c : FaultCode) (a o n : Word) : (s.raise c a o n).fault = some ⟨c, a, o, n⟩ := rfl
@[simp] theorem State.raise_params (c : FaultCode) (a o n : Word) : (s.raise c a o n).params = s.params := rfl

@[simp] theorem State.setStack_v (k : Nat) (h : k < 16) (w : Word) : (s.setStack k h w).v = s.v := rfl
@[simp] theorem State.setStack_i (k : Nat) (h : k < 16) (w : Word) : (s.setStack k h w).i = s.i := rfl
@[simp] theorem State.setStack_pc (k : Nat) (h : k < 16) (w : Word) : (s.setStack k h w).pc = s.pc := rfl
@[simp] theorem State.setStack_stack (k : Nat) (h : k < 16) (w : Word) : (s.setStack k h w).stack = s.stack.set k w h := rfl
@[simp] theorem State.setStack_sp (k : Nat) (h : k < 16) (w : Word) : (s.setStack k h w).sp = s.sp := rfl
@[simp] theorem State.setStack_mem (k : Nat) (h : k < 16) (w : Word) : (s.setStack k h w).mem = s.mem := rfl
@[simp] theorem State.setStack_display (k : Nat) (h : k < 16) (w : Word) : (s.setStack k h w).display = s.display := rfl
@[simp] theorem State.setStack_keys (k : Nat) (h : k < 16) (w : Word) : (s.setStack k h w).keys = s.keys := rfl
@[simp] theorem State.setStack_dt (k : Nat) (h : k < 16) (w : Word) : (s.setStack k h w).dt = s.dt := rfl
@[simp] theorem State.setStack_st (k : Nat) (h : k < 16) (w : Word) : (s.setStack k h w).st = s.st := rfl
@[simp] theorem State.setStack_fault (k : Nat) (h : k < 16) (w : Word) : (s.setStack k h w).fault = s.fault := rfl
@[simp] theorem State.setStack_params (k : Nat) (h : k < 16) (w : Word) : (s.setStack k h w).params = s.params := rfl

@[simp] theorem State.setSp_v (b : Byte) : (s.setSp b).v = s.v := rfl
@[simp] theorem State.setSp_i (b : Byte) : (s.setSp b).i = s.i := rfl
@[simp] theorem State.setSp_pc (b : Byte) : (s.setSp b).pc = s.pc := rfl
@[simp] theorem State.setSp_stack (b : Byte) : (s.setSp b).stack = s.stack := rfl
@[simp] theorem State.setSp_sp (b : Byte) : (s.setSp b).sp = b := rfl
@[simp] theorem State.setSp_mem (b : Byte) : (s.setSp b).mem = s.mem := rfl
@[simp] theorem State.setSp_display (b : Byte) : (s.setSp b).display = s.display := rfl
@[simp] theorem State.setSp_keys (b : Byte) : (s.setSp b).keys = s.keys := rfl
@[simp] theorem State.setSp_dt (b : Byte) : (s.setSp b).dt = s.dt := rfl
@[simp] theorem State.setSp_st (b : Byte) : (s.setSp b).st = s.st := rfl
@[simp] theorem State.setSp_fault (b : Byte) : (s.setSp b).fault = s.fault := rfl
@[simp] theorem State.setSp_params (b : Byte) : (s.setSp b).params = s.params := rfl

@[simp] theorem State.setCollision_v (c : Bool) : (s.setCollision c).v = s.v.set 15 (collisionByte c) := rfl
@[simp] theorem State.setCollision_i (c : Bool) : (s.setCollision c).i = s.i := rfl
@[simp] theorem State.setCollision_pc (c : Bool) : (s.setCollision c).pc = s.pc := rfl
@[simp] theorem State.setCollision_stack (c : Bool) : (s.setCollision c).stack = s.stack := rfl
@[simp] theorem State.setCollision_sp (c : Bool) : (s.setCollision c).sp = s.sp := rfl
@[simp] theorem State.setCollision_mem (c : Bool) : (s.setCollision c).mem = s.mem := rfl
@[simp] theorem State.setCollision_display (c : Bool) : (s.setCollision c).display = s.display := rfl
@[simp] theorem State.setCollision_keys (c : Bool) : (s.setCollision c).keys = s.keys := rfl
@[simp] theorem State.setCollision_dt (c : Bool) : (s.setCollision c).dt = s.dt := rfl
@[simp] theorem State.setCollision_st (c : Bool) : (s.setCollision c).st = s.st := rfl
@[simp] theorem State.setCollision_fault (c : Bool) : (s.setCollision c).fault = s.fault := rfl
@[simp] theorem State.setCollision_params (c : Bool) : (s.setCollision c).params = s.params := rfl

end

/-- Two states with the same fields are the same state. -/
theorem State.eq_of_fields {s t : State} (hv : s.v = t.v) (hi : s.i = t.i) (hpc : s.pc = t.pc)
    (hstack : s.stack = t.stack) (hsp : s.sp = t.sp) (hmem : s.mem = t.mem) (hdisplay : s.display = t.display)
    (hkeys : s.keys = t.keys) (hdt : s.dt = t.dt) (hst : s.st = t.st) (hfault : s.fault = t.fault)
    (hparams : s.params = t.params) : s = t := by
  cases s; cases t; simp_all

/-- A register read after a register write. -/
@[simp] theorem State.getV_setV (s : State) (x y : Reg) (b : Byte) :
    (s.setV x b).getV y = if y = x then b else s.getV y := by
  simp only [State.getV, State.setV_v, Vector.getElem_set, eq_comm (a := y), Fin.ext_iff]

/-- Updates of other fields leave every register. -/
@[simp] theorem State.getV_setI (s : State) (w : Word) (y : Reg) : (s.setI w).getV y = s.getV y := rfl
@[simp] theorem State.getV_setPc (s : State) (w : Word) (y : Reg) : (s.setPc w).getV y = s.getV y := rfl
@[simp] theorem State.getV_setDisplay (s : State) (d : Display) (y : Reg) : (s.setDisplay d).getV y = s.getV y := rfl
@[simp] theorem State.getV_setMem (s : State) (m : Memory) (y : Reg) : (s.setMem m).getV y = s.getV y := rfl
@[simp] theorem State.getV_advancePc (s : State) (y : Reg) : (s.advancePc).getV y = s.getV y := rfl
@[simp] theorem State.getV_putByte (s : State) (a : Nat) (u : Byte) (y : Reg) : (s.putByte a u).getV y = s.getV y := rfl
@[simp] theorem State.getV_raise (s : State) (c : FaultCode) (a o n : Word) (y : Reg) : (s.raise c a o n).getV y = s.getV y := rfl
@[simp] theorem State.getV_setStack (s : State) (k : Nat) (h : k < 16) (w : Word) (y : Reg) : (s.setStack k h w).getV y = s.getV y := rfl
@[simp] theorem State.getV_setSp (s : State) (b : Byte) (y : Reg) : (s.setSp b).getV y = s.getV y := rfl

/-- VF after the collision flag is written. -/
@[simp] theorem State.getV_setCollision (s : State) (c : Bool) (y : Reg) :
    (s.setCollision c).getV y = if y = vf then collisionByte c else s.getV y := by
  simp [State.setCollision]

end Sys2Proof.Machine
end

