-- ==== Sys2Proof/Laws/Memory.lean ====
section
/-! SUPPORT. Memory: a read after a write, the canonical form kept, and equal reads of canonical memories. -/

namespace Sys2Proof.Machine

theorem Memory.find_erase (a a' : Nat) (m : Memory) :
    Memory.find a' (Memory.erase a m) = if a' = a then none else Memory.find a' m := by
  induction m with
  | nil => simp [Memory.erase, Memory.find]
  | cons c rest ih =>
    by_cases hb : c.1 = a
    · by_cases h : a' = a
      · subst h; simpa [Memory.erase, hb] using ih
      · simp [Memory.erase, hb, ih, h, Memory.find]
    · by_cases h : a' = a
      · subst h; simp [Memory.erase, hb, ih, Memory.find, Ne.symm hb]
      · simp [Memory.erase, hb, ih, h, Memory.find]

theorem Memory.find_insert (a a' : Nat) (u : Byte) (m : Memory) (h : Memory.find a m = none) :
    Memory.find a' (Memory.insert a u m) = if a' = a then some u else Memory.find a' m := by
  induction m with
  | nil => rfl
  | cons c rest ih =>
    obtain ⟨b, t⟩ := c
    have hab : a ≠ b := by rintro rfl; simp [Memory.find] at h
    have hrest : Memory.find a rest = none := by simpa [Memory.find, hab] using h
    by_cases hlt : a < b
    · simp [Memory.insert, hlt, Memory.find]
    · by_cases hb : a' = b
      · subst hb; simp [Memory.insert, hlt, Memory.find, hab.symm]
      · simp [Memory.insert, hlt, Memory.find, hb, ih hrest]

/-- Reading after putting a byte in: that byte at its address, every other address as before. -/
theorem Memory.get_put (p : Params) (a a' : Nat) (u : Byte) (m : Memory) :
    Memory.get p (Memory.put (unlisted p a) a u m) a' = if a' = a then u else Memory.get p m a' := by
  have hnone : Memory.find a (Memory.erase a m) = none := by simp [Memory.find_erase]
  by_cases hu : u = unlisted p a <;> by_cases h : a' = a
  · subst h; simp [Memory.get, Memory.put, hu, Memory.find_erase]
  · simp [Memory.get, Memory.put, hu, Memory.find_erase, h]
  · subst h; simp [Memory.get, Memory.put, hu, Memory.find_insert _ _ _ _ hnone]
  · simp [Memory.get, Memory.put, hu, Memory.find_insert _ _ _ _ hnone, Memory.find_erase, h]

theorem Memory.wfFrom_mono {p : Params} {lo lo' : Nat} {m : Memory} (h : lo' ≤ lo)
    (hm : Memory.wfFrom p lo m = true) : Memory.wfFrom p lo' m = true := by
  cases m with
  | nil => rfl
  | cons c rest =>
    simp only [Memory.wfFrom, Bool.and_eq_true, decide_eq_true_eq] at hm ⊢
    obtain ⟨⟨⟨h1, h2⟩, h3⟩, h4⟩ := hm
    exact ⟨⟨⟨by omega, h2⟩, h3⟩, h4⟩

theorem Memory.wfFrom_erase {p : Params} {lo : Nat} {m : Memory} (a : Nat)
    (hm : Memory.wfFrom p lo m = true) : Memory.wfFrom p lo (Memory.erase a m) = true := by
  induction m generalizing lo with
  | nil => rfl
  | cons c rest ih =>
    simp only [Memory.wfFrom, Bool.and_eq_true, decide_eq_true_eq] at hm
    obtain ⟨⟨⟨h1, h2⟩, h3⟩, h4⟩ := hm
    simp only [Memory.erase]
    split
    · exact Memory.wfFrom_mono (by omega) (ih h4)
    · simp only [Memory.wfFrom, Bool.and_eq_true, decide_eq_true_eq]
      exact ⟨⟨⟨h1, h2⟩, h3⟩, ih h4⟩

theorem Memory.not_mem_erase (a : Nat) (m : Memory) : ∀ c ∈ Memory.erase a m, c.1 ≠ a := by
  induction m with
  | nil => simp [Memory.erase]
  | cons c rest ih =>
    simp only [Memory.erase]
    split
    · exact ih
    · intro d hd
      rcases List.mem_cons.1 hd with rfl | hd
      · assumption
      · exact ih d hd

theorem Memory.wfFrom_insert {p : Params} {lo a : Nat} {u : Byte} {m : Memory} (ha : a < 4096)
    (hu : u ≠ unlisted p a) (hlo : lo ≤ a) (hm : Memory.wfFrom p lo m = true) (hno : ∀ c ∈ m, c.1 ≠ a) :
    Memory.wfFrom p lo (Memory.insert a u m) = true := by
  induction m generalizing lo with
  | nil => simp [Memory.insert, Memory.wfFrom, ha, hu, hlo]
  | cons c rest ih =>
    obtain ⟨b, t⟩ := c
    have hba : b ≠ a := hno (b, t) (by simp)
    simp only [Memory.wfFrom, Bool.and_eq_true, decide_eq_true_eq] at hm
    obtain ⟨⟨⟨h1, h2⟩, h3⟩, h4⟩ := hm
    by_cases hlt : a < b
    · simp only [Memory.insert, hlt, if_true, Memory.wfFrom, Bool.and_eq_true, decide_eq_true_eq]
      exact ⟨⟨⟨hlo, ha⟩, hu⟩, ⟨⟨by omega, h2⟩, h3⟩, h4⟩
    · simp only [Memory.insert, hlt, if_false, Memory.wfFrom, Bool.and_eq_true, decide_eq_true_eq]
      exact ⟨⟨⟨h1, h2⟩, h3⟩, ih (by omega) h4 fun c hc => hno c (by simp [hc])⟩

/-- Putting a byte at an address of memory keeps the canonical form. -/
theorem Memory.wf_put {p : Params} {a : Nat} {m : Memory} (u : Byte) (ha : a < 4096)
    (hm : Memory.wf p m = true) : Memory.wf p (Memory.put (unlisted p a) a u m) = true := by
  unfold Memory.put
  by_cases hu : u = unlisted p a
  · simp only [hu, if_true]; exact Memory.wfFrom_erase _ hm
  · simp only [hu, if_false]
    exact Memory.wfFrom_insert ha hu (Nat.zero_le _) (Memory.wfFrom_erase _ hm) (Memory.not_mem_erase a m)

theorem Memory.find_lt {p : Params} {lo a : Nat} {m : Memory} (hm : Memory.wfFrom p lo m = true) (h : a < lo) :
    Memory.find a m = none := by
  induction m generalizing lo with
  | nil => rfl
  | cons c rest ih =>
    simp only [Memory.wfFrom, Bool.and_eq_true, decide_eq_true_eq] at hm
    obtain ⟨⟨⟨h1, h2⟩, h3⟩, h4⟩ := hm
    simp only [Memory.find, show a ≠ c.1 by omega, if_false]
    exact ih h4 (by omega)

theorem Memory.eq_of_get_from {p : Params} {lo : Nat} {m m' : Memory} (hm : Memory.wfFrom p lo m = true)
    (hm' : Memory.wfFrom p lo m' = true) (h : ∀ a, lo ≤ a → a < 4096 → Memory.get p m a = Memory.get p m' a) :
    m = m' := by
  induction m generalizing lo m' with
  | nil =>
    cases m' with
    | nil => rfl
    | cons c rest =>
      simp only [Memory.wfFrom, Bool.and_eq_true, decide_eq_true_eq] at hm'
      obtain ⟨⟨⟨h1, h2⟩, h3⟩, -⟩ := hm'
      have := h c.1 h1 h2
      simp [Memory.get, Memory.find] at this
      exact absurd this.symm h3
  | cons c rest ih =>
    have hc := hm
    simp only [Memory.wfFrom, Bool.and_eq_true, decide_eq_true_eq] at hc
    obtain ⟨⟨⟨h1, h2⟩, h3⟩, h4⟩ := hc
    cases m' with
    | nil =>
      have := h c.1 h1 h2
      simp [Memory.get, Memory.find] at this
      exact absurd this h3
    | cons c' rest' =>
      have hc' := hm'
      simp only [Memory.wfFrom, Bool.and_eq_true, decide_eq_true_eq] at hc'
      obtain ⟨⟨⟨h1', h2'⟩, h3'⟩, h4'⟩ := hc'
      have hkey : c.1 = c'.1 := by
        rcases Nat.lt_trichotomy c.1 c'.1 with hlt | heq | hgt
        · have := h c.1 h1 h2
          simp [Memory.get, Memory.find, Nat.ne_of_lt hlt, Memory.find_lt h4' (show c.1 < c'.1 + 1 by omega)] at this
          exact absurd this h3
        · exact heq
        · have := h c'.1 h1' h2'
          simp [Memory.get, Memory.find, Nat.ne_of_lt hgt, Memory.find_lt h4 (show c'.1 < c.1 + 1 by omega)] at this
          exact absurd this.symm h3'
      have hval : c.2 = c'.2 := by
        have := h c.1 h1 h2
        simpa [Memory.get, Memory.find, hkey] using this
      have hrest : rest = rest' := by
        refine ih h4 (hkey ▸ h4') fun a ha ha' => ?_
        have := h a (by omega) ha'
        simpa [Memory.get, Memory.find, show a ≠ c.1 by omega, show a ≠ c'.1 by omega] using this
      rw [show c = c' from Prod.ext hkey hval, hrest]

/-- The form is canonical: two canonical memories that read the same are the same list. -/
theorem Memory.eq_of_get {p : Params} {m m' : Memory} (hm : Memory.wf p m = true) (hm' : Memory.wf p m' = true)
    (h : ∀ a, a < 4096 → Memory.get p m a = Memory.get p m' a) : m = m' :=
  Memory.eq_of_get_from hm hm' fun a _ => h a

/-- The memory of RESET has the canonical form. -/
theorem State.resetWith_wf (p : Params) : Memory.wf p (State.resetWith p).mem = true := rfl

end Sys2Proof.Machine
end

