-- ==== Sys2Proof/Laws/Ops.lean ====
section
/-! SUPPORT. What each shared operation can do, once. -/

namespace Sys2Proof.Machine

/-- A read inside memory. -/
theorem memRead_ok {a : Nat} (s : State) (h : a < 4096) : memRead s a = .ok (s.mem.get s.params a) := if_pos h

/-- A read outside memory. -/
theorem memRead_error {a : Nat} (s : State) (h : 4096 ≤ a) : memRead s a = .error (.noSuchAddress a) :=
  if_neg (by omega)

/-- A read that answers is inside memory and gives the byte there. -/
theorem memRead_eq_ok {s : State} {a : Nat} {b : Byte} :
    memRead s a = .ok b ↔ a < 4096 ∧ s.mem.get s.params a = b := by
  unfold memRead; split <;> simp_all

/-- A read depends on memory and the parameters only. -/
theorem memRead_congr {s t : State} (hm : t.mem = s.mem) (hp : t.params = s.params) (a : Nat) :
    memRead t a = memRead s a := by
  simp [memRead, hm, hp]

/-- Reading after a byte is put in. -/
theorem memRead_putByte (s : State) (a a' : Nat) (u : Byte) (h : a' < 4096) :
    memRead (s.putByte a u) a' = if a' = a then .ok u else memRead s a' := by
  rw [memRead_ok _ h, memRead_ok _ h]
  simp only [State.putByte_mem, State.putByte_params, Memory.get_put]
  split <;> rfl

/-- A write that answers is inside memory and puts the byte in. -/
theorem memWrite_eq_ok {s t : State} {a : Nat} {u : Byte} :
    memWrite s a u = .ok t ↔ a < 4096 ∧ t = s.putByte a u := by
  unfold memWrite; split <;> simp_all [eq_comm]

/-- Reading `n` bytes that all exist answers them in order. -/
theorem memReadMany_ok (s : State) (a n : Nat) (h : a + n ≤ 4096) :
    memReadMany s a n = .ok ((List.range n).map fun k => s.mem.get s.params (a + k)) := by
  induction n generalizing a with
  | zero => rfl
  | succ n ih =>
    simp only [memReadMany, memRead_ok s (show a < 4096 by omega), ih (a + 1) (by omega), List.range_succ_eq_map,
      List.map_cons, List.map_map, Nat.add_zero]
    congr 2
    apply List.map_congr_left
    intro k _
    simp [Nat.add_assoc, Nat.add_comm 1]

/-- Writing bytes that all fit answers a state that differs in memory only and reads as the bytes there. -/
theorem memWriteMany_ok (bytes : List Byte) (s : State) (a : Nat) (h : a + bytes.length ≤ 4096) :
    ∃ t, memWriteMany s a bytes = .ok t ∧ t = { s with mem := t.mem } ∧
      (Memory.wf s.params s.mem = true → Memory.wf s.params t.mem = true) ∧
      ∀ a', a' < 4096 →
        t.mem.get s.params a' =
          if h' : a ≤ a' ∧ a' < a + bytes.length then bytes[a' - a]'(by omega) else s.mem.get s.params a' := by
  induction bytes generalizing s a with
  | nil => exact ⟨s, rfl, rfl, id, fun a' _ => by simp⟩
  | cons b bs ih =>
    simp only [List.length_cons] at h
    obtain ⟨t, ht, hfields, hwf, hget⟩ := ih (s.putByte a b) (a + 1) (by omega)
    have hw : memWrite s a b = .ok (s.putByte a b) := memWrite_eq_ok.2 ⟨by omega, rfl⟩
    refine ⟨t, by simp [memWriteMany, hw, ht], hfields, ?_, ?_⟩
    · exact fun hm => hwf (Memory.wf_put b (by omega) hm)
    · intro a' ha'
      have := hget a' ha'
      simp only [State.putByte_params, State.putByte_mem, Memory.get_put] at this
      rw [this]
      by_cases h1 : a' = a
      · subst h1; simp
      · by_cases h2 : a + 1 ≤ a' ∧ a' < a + 1 + bs.length
        · have h3 : a ≤ a' ∧ a' < a + (bs.length + 1) := by omega
          simp only [h2, and_self, dite_true, List.length_cons, h3]
          rw [List.getElem_cons]
          simp [show a' - a ≠ 0 by omega, show a' - (a + 1) = a' - a - 1 by omega]
        · have h3 : ¬(a ≤ a' ∧ a' < a + (bs.length + 1)) := by omega
          simp only [h2, dite_false, List.length_cons, h3, h1, if_false]

/-- A fetch in bounds answers the two bytes at `PC`, high byte first. -/
theorem fetchOpcode_ok {s : State} (h : s.pc.toNat + 1 ≤ 4095) :
    fetchOpcode s =
      .ok (wordOfBytes (s.mem.get s.params s.pc.toNat) (s.mem.get s.params (s.pc.toNat + 1))) := by
  simp [fetchOpcode, memRead_ok s (show s.pc.toNat < 4096 by omega),
    memRead_ok s (show s.pc.toNat + 1 < 4096 by omega)]

/-- A pixel read after a pixel write. -/
theorem Display.pixel_setPixel (d : Display) (x y x' y' : Nat) (b : Bool) :
    Display.pixel (Display.setPixel d x y b) x' y' =
      if x' % 64 = x % 64 ∧ y' % 32 = y % 32 then b else Display.pixel d x' y' := by
  unfold Display.pixel Display.setPixel
  simp only [Vector.getElem_set]
  by_cases hy : y % 32 = y' % 32
  · by_cases hx : x % 64 = x' % 64
    · simp [hx, hy]
    · simp [hy, hx, Ne.symm hx]
  · simp [hy, Ne.symm hy]

/-- The dark display. -/
@[simp] theorem Display.pixel_dark (x y : Nat) : Display.pixel Display.dark x y = false := by
  simp [Display.pixel, Display.dark]

@[simp] theorem Display.entry_dark (k : Fin 2048) : Display.entry Display.dark k = false := by
  simp [Display.entry]

/-- Displays with the same pixels are the same display. -/
theorem Display.eq_of_pixel {d d' : Display} (h : ∀ x y, x < 64 → y < 32 → Display.pixel d x y = Display.pixel d' x y) :
    d = d' := by
  apply Vector.ext; intro y hy
  apply Vector.ext; intro x hx
  have := h x y hx hy
  simpa [Display.pixel, Nat.mod_eq_of_lt hx, Nat.mod_eq_of_lt hy] using this

/-- Pixel `(x, y)` of the screen is entry `x + 64 y`. -/
theorem Display.entry_eq_pixel (d : Display) {x y : Nat} (hx : x < 64) (hy : y < 32) :
    Display.entry d ⟨x + 64 * y, by omega⟩ = Display.pixel d x y := by
  simp [Display.entry, show (x + 64 * y) % 64 = x by omega, show (x + 64 * y) / 64 = y by omega]

/-- The address of the executing instruction, seen after the advance of fetch. -/
@[simp] theorem State.instrAddr_advancePc (s : State) : s.advancePc.instrAddr = s.pc := by
  simp [State.instrAddr]

/-- ADD's sum is the wrapping sum of bit vectors. -/
theorem addMod256_eq_add (a b : Byte) : addMod256 a b = a + b := by
  apply BitVec.eq_of_toNat_eq
  simp [addMod256, BitVec.toNat_add]

end Sys2Proof.Machine
end

