-- ==== Sys2Proof/Laws/Draw.lean ====
section
/-! SUPPORT. What the drawing loop does, pixel by pixel: no pixel is touched twice, so the loop has a closed form. -/

namespace Sys2Proof.Machine

theorem Canvas.pixel_touch (mode : DrawMode) (x y px py : Nat) (c : Canvas) :
    Display.pixel (Canvas.touch mode x y c).display px py =
      if px % 64 = x % 64 ∧ py % 32 = y % 32 then pixelOp mode (Display.pixel c.display px py)
      else Display.pixel c.display px py := by
  simp only [Canvas.touch, Display.pixel_setPixel]
  split
  · rename_i h
    simp [Display.pixel, h.1, h.2]
  · rfl

theorem Canvas.collision_touch (mode : DrawMode) (x y : Nat) (c : Canvas) :
    (Canvas.touch mode x y c).collision = (c.collision || Display.pixel c.display x y) := rfl

/-- Some bit of the columns `L` of the row `b` maps to `(px, py)`. -/
def Canvas.rowHits (x0 y : Nat) (b : Byte) (L : List Nat) (px py : Nat) : Prop :=
  py % 32 = y % 32 ∧ ∃ dx ∈ L, b.getLsbD (7 - dx) = true ∧ px % 64 = (x0 + dx) % 64

/-- One sprite row over any columns no two of which fall on one pixel. -/
theorem Canvas.foldl_drawBit (mode : DrawMode) (x0 y : Nat) (b : Byte) (L : List Nat) (hnd : L.Nodup)
    (hlt : ∀ dx ∈ L, dx < 64) (c : Canvas) :
    (∀ px py, Canvas.rowHits x0 y b L px py →
      Display.pixel (L.foldl (Canvas.drawBit mode x0 y b) c).display px py =
        pixelOp mode (Display.pixel c.display px py)) ∧
    (∀ px py, ¬ Canvas.rowHits x0 y b L px py →
      Display.pixel (L.foldl (Canvas.drawBit mode x0 y b) c).display px py = Display.pixel c.display px py) ∧
    ((L.foldl (Canvas.drawBit mode x0 y b) c).collision = true ↔
      c.collision = true ∨
        ∃ dx ∈ L, b.getLsbD (7 - dx) = true ∧ Display.pixel c.display (x0 + dx) y = true) := by
  induction L generalizing c with
  | nil => simp [Canvas.rowHits]
  | cons d L ih =>
    rw [List.nodup_cons] at hnd
    obtain ⟨h1, h2, h3⟩ := ih hnd.2 (fun dx h => hlt dx (by simp [h])) (Canvas.drawBit mode x0 y b c d)
    have hd : d < 64 := hlt d (by simp)
    have hother : ∀ dx ∈ L, (x0 + dx) % 64 ≠ (x0 + d) % 64 := by
      intro dx hdx he
      have : dx < 64 := hlt dx (by simp [hdx])
      have : dx = d := by omega
      exact hnd.1 (this ▸ hdx)
    by_cases hbit : b.getLsbD (7 - d) = true
    · have hc : Canvas.drawBit mode x0 y b c d = Canvas.touch mode (x0 + d) y c := by
        simp [Canvas.drawBit, hbit]
      simp only [List.foldl_cons]
      rw [hc] at h1 h2 h3 ⊢
      refine ⟨?_, ?_, ?_⟩
      · rintro px py ⟨hy, dx, hdx, hb, hx⟩
        by_cases hd' : dx = d
        · subst hd'
          rw [h2, Canvas.pixel_touch, if_pos ⟨hx, hy⟩]
          rintro ⟨-, dx', hdx', -, hx'⟩
          exact hother dx' hdx' (by omega)
        · have hdL : dx ∈ L := by simpa [hd'] using hdx
          rw [h1 px py ⟨hy, dx, hdL, hb, hx⟩, Canvas.pixel_touch, if_neg]
          rintro ⟨hx', -⟩
          exact hother dx hdL (by omega)
      · intro px py hno
        rw [h2, Canvas.pixel_touch, if_neg]
        · rintro ⟨hx, hy⟩
          exact hno ⟨hy, d, by simp, hbit, hx⟩
        · rintro ⟨hy, dx, hdx, hb, hx⟩
          exact hno ⟨hy, dx, by simp [hdx], hb, hx⟩
      · rw [h3, Canvas.collision_touch]
        have hsame : ∀ dx ∈ L, Display.pixel (Canvas.touch mode (x0 + d) y c).display (x0 + dx) y =
            Display.pixel c.display (x0 + dx) y := by
          intro dx hdx
          rw [Canvas.pixel_touch, if_neg]
          exact fun h => hother dx hdx h.1
        constructor
        · rintro (h | ⟨dx, hdx, hb, hp⟩)
          · rcases Bool.or_eq_true_iff.1 h with h | h
            · exact .inl h
            · exact .inr ⟨d, by simp, hbit, h⟩
          · exact .inr ⟨dx, by simp [hdx], hb, by rw [← hsame dx hdx]; exact hp⟩
        · rintro (h | ⟨dx, hdx, hb, hp⟩)
          · exact .inl (by simp [h])
          · by_cases hd' : dx = d
            · subst hd'; exact .inl (by simp [hp])
            · have hdL : dx ∈ L := by simpa [hd'] using hdx
              exact .inr ⟨dx, hdL, hb, by rw [hsame dx hdL]; exact hp⟩
    · have hc : Canvas.drawBit mode x0 y b c d = c := by simp [Canvas.drawBit, hbit]
      have hhits : ∀ px py, Canvas.rowHits x0 y b (d :: L) px py ↔ Canvas.rowHits x0 y b L px py := by
        simp [Canvas.rowHits, hbit]
      simp only [List.foldl_cons]
      rw [hc] at h1 h2 h3 ⊢
      refine ⟨fun px py h => h1 px py ((hhits px py).1 h),
        fun px py h => h2 px py (fun h' => h ((hhits px py).2 h')), ?_⟩
      rw [h3]; simp [hbit]

/-- Some bit of the sprite rows maps to `(px, py)` when the sprite's top left corner is at `(x0, y)`. -/
def Canvas.spriteHits (x0 y : Nat) (rows : List Byte) (px py : Nat) : Prop :=
  ∃ k dx : Nat, ∃ b : Byte, rows[k]? = some b ∧ dx < 8 ∧ b.getLsbD (7 - dx) = true ∧
    px % 64 = (x0 + dx) % 64 ∧ py % 32 = (y + k) % 32

/-- The closed form of the drawing loop (R98), for at most 32 rows: a touched pixel gets `Pixel(DRAW_MODE, old)`,
every other pixel stays, and a collision is a touched pixel that was true before. -/
theorem Canvas.drawRows_spec (mode : DrawMode) (x0 y : Nat) (rows : List Byte) (hlen : rows.length ≤ 32)
    (c : Canvas) :
    (∀ px py, Canvas.spriteHits x0 y rows px py →
      Display.pixel (Canvas.drawRows mode x0 y rows c).display px py =
        pixelOp mode (Display.pixel c.display px py)) ∧
    (∀ px py, ¬ Canvas.spriteHits x0 y rows px py →
      Display.pixel (Canvas.drawRows mode x0 y rows c).display px py = Display.pixel c.display px py) ∧
    ((Canvas.drawRows mode x0 y rows c).collision = true ↔
      c.collision = true ∨ ∃ px py, Canvas.spriteHits x0 y rows px py ∧ Display.pixel c.display px py = true) := by
  induction rows generalizing y c with
  | nil => simp [Canvas.drawRows, Canvas.spriteHits]
  | cons b rows ih =>
    simp only [List.length_cons] at hlen
    obtain ⟨r1, r2, r3⟩ := Canvas.foldl_drawBit mode x0 y b (List.range 8) List.nodup_range
      (fun dx h => by have := List.mem_range.1 h; omega) c
    obtain ⟨h1, h2, h3⟩ := ih (y + 1) (by omega) (Canvas.drawRow mode x0 y b c)
    have hcons : ∀ px py, Canvas.spriteHits x0 y (b :: rows) px py ↔
        Canvas.rowHits x0 y b (List.range 8) px py ∨ Canvas.spriteHits x0 (y + 1) rows px py := by
      intro px py
      constructor
      · rintro ⟨k, dx, b', hk, hdx, hb, hx, hy⟩
        cases k with
        | zero =>
          simp only [List.getElem?_cons_zero, Option.some.injEq] at hk
          subst hk
          exact .inl ⟨hy, dx, List.mem_range.2 hdx, hb, hx⟩
        | succ k =>
          exact .inr ⟨k, dx, b', by simpa using hk, hdx, hb, hx, by rw [hy]; congr 1; omega⟩
      · rintro (⟨hy, dx, hdx, hb, hx⟩ | ⟨k, dx, b', hk, hdx, hb, hx, hy⟩)
        · exact ⟨0, dx, b, by simp, List.mem_range.1 hdx, hb, hx, hy⟩
        · exact ⟨k + 1, dx, b', by simpa using hk, hdx, hb, hx, by rw [hy]; congr 1; omega⟩
    have hrow : ∀ px py, Canvas.rowHits x0 y b (List.range 8) px py →
        ¬ Canvas.spriteHits x0 (y + 1) rows px py := by
      rintro px py ⟨hy, -⟩ ⟨k, dx, b', hk, -, -, -, hy'⟩
      have : k < rows.length := (List.getElem?_eq_some_iff.1 hk).1
      omega
    refine ⟨?_, ?_, ?_⟩
    · intro px py h
      rcases (hcons px py).1 h with h | h
      · rw [Canvas.drawRows, h2 px py (hrow px py h)]
        exact r1 px py h
      · rw [Canvas.drawRows, h1 px py h]
        congr 1
        exact r2 px py fun h' => hrow px py h' h
    · intro px py h
      have h' := (not_congr (hcons px py)).1 h
      rw [Canvas.drawRows, h2 px py fun q => h' (.inr q)]
      exact r2 px py fun q => h' (.inl q)
    · rw [Canvas.drawRows, h3]
      constructor
      · rintro (h | ⟨px, py, hh, hp⟩)
        · rcases r3.1 h with h | ⟨dx, hdx, hb, hp⟩
          · exact .inl h
          · exact .inr ⟨x0 + dx, y, (hcons _ _).2 (.inl ⟨rfl, dx, hdx, hb, rfl⟩), hp⟩
        · refine .inr ⟨px, py, (hcons _ _).2 (.inr hh), ?_⟩
          rw [← r2 px py fun h' => hrow px py h' hh]
          exact hp
      · rintro (h | ⟨px, py, hh, hp⟩)
        · exact .inl (r3.2 (.inl h))
        · rcases (hcons px py).1 hh with h | h
          · obtain ⟨hy, dx, hdx, hb, hx⟩ := h
            refine .inl (r3.2 (.inr ⟨dx, hdx, hb, ?_⟩))
            simpa [Display.pixel, hx, hy] using hp
          · refine .inr ⟨px, py, h, ?_⟩
            rw [← r2 px py fun h' => hrow px py h' h] at hp
            exact hp

end Sys2Proof.Machine
end

