-- ==== Sys2Proof/Laws/Exec.lean ====
section
/-! SUPPORT. What each instruction answers, and what one TICK can do, once. -/

namespace Sys2Proof.Machine

/-- The sprite rows DRW reads, when they all exist. -/
def State.rowsAt (s : State) (n : Nibble) : List Byte :=
  (List.range n.toNat).map fun k => s.mem.get s.params (s.i.toNat + k)

@[simp] theorem State.rowsAt_length (s : State) (n : Nibble) : (s.rowsAt n).length = n.toNat := by
  simp [State.rowsAt]

theorem execCls_eq (s : State) : exec .cls s = .next (s.setDisplay Display.dark) := rfl

theorem execJp_eq (nnn : Addr) (s : State) : exec (.jp nnn) s = .next (s.setPc (nnn.setWidth 16)) := rfl

theorem execLd_eq (x : Reg) (kk : Byte) (s : State) : exec (.ld x kk) s = .next (s.setV x kk) := rfl

theorem execAdd_eq (x : Reg) (kk : Byte) (s : State) : exec (.add x kk) s = .next (s.setV x (s.getV x + kk)) := by
  rw [← addMod256_eq_add]; rfl

theorem execLdI_eq (nnn : Addr) (s : State) : exec (.ldI nnn) s = .next (s.setI (nnn.setWidth 16)) := rfl

/-- A DRW whose sprite lies in memory draws it. -/
theorem execDrw_draws {s : State} {n : Nibble} (x y : Reg) (h : s.i.toNat + n.toNat ≤ 4096) :
    exec (.drw x y n) s = .next (s.drawSprite x y (s.rowsAt n)) := by
  simp only [exec, execDrw, State.spriteRows, memReadMany_ok s _ _ h]
  rw [if_pos h]
  rfl

/-- A DRW whose sprite does not lie in memory faults. -/
theorem execDrw_faults {s : State} {n : Nibble} (x y : Reg) (h : ¬ s.i.toNat + n.toNat ≤ 4096) :
    exec (.drw x y n) s = .next (s.raise .spriteBounds s.instrAddr (encode (.drw x y n)) s.i) := by
  simp only [exec, execDrw]
  rw [if_neg h]
  rfl

/-- Everything an instruction can do to a state. -/
theorem exec_cases (i : Instr) (s : State) :
    exec i s = .next (s.setDisplay Display.dark) ∨
    (∃ nnn : Addr, i = .jp nnn ∧ exec i s = .next (s.setPc (nnn.setWidth 16))) ∨
    (∃ x b, exec i s = .next (s.setV x b)) ∨
    (∃ nnn : Addr, exec i s = .next (s.setI (nnn.setWidth 16))) ∨
    (∃ x y n, i = .drw x y n ∧ s.i.toNat + n.toNat ≤ 4096 ∧ exec i s = .next (s.drawSprite x y (s.rowsAt n))) ∨
    (∃ x y n, i = .drw x y n ∧ ¬ s.i.toNat + n.toNat ≤ 4096 ∧
      exec i s = .next (s.raise .spriteBounds s.instrAddr (encode i) s.i)) := by
  cases i with
  | cls => exact .inl rfl
  | jp nnn => exact .inr (.inl ⟨nnn, rfl, rfl⟩)
  | ld x kk => exact .inr (.inr (.inl ⟨x, _, rfl⟩))
  | add x kk => exact .inr (.inr (.inl ⟨x, _, rfl⟩))
  | ldI nnn => exact .inr (.inr (.inr (.inl ⟨nnn, rfl⟩)))
  | drw x y n =>
    by_cases h : s.i.toNat + n.toNat ≤ 4096
    · exact .inr (.inr (.inr (.inr (.inl ⟨x, y, n, rfl, h, execDrw_draws x y h⟩))))
    · exact .inr (.inr (.inr (.inr (.inr ⟨x, y, n, rfl, h, execDrw_faults x y h⟩))))

/-- The word a fetch in bounds gives. -/
def State.opcodeAtPc (s : State) : Word :=
  wordOfBytes (s.mem.get s.params s.pc.toNat) (s.mem.get s.params (s.pc.toNat + 1))

/-- `Fetches` names the word at `PC`. -/
theorem Fetches.eq_opcodeAtPc {s : State} {w : Word} (h : Fetches s w) : w = s.opcodeAtPc := by
  rw [State.opcodeAtPc, (memRead_eq_ok.1 h.high).2, (memRead_eq_ok.1 h.low).2, wordOfBytes_bytes]

/-- A READY core whose fetch is in bounds fetches the word at `PC`. -/
theorem fetches_opcodeAtPc {s : State} (hr : s.fault = none) (hb : s.pc.toNat + 1 ≤ 4095) :
    Fetches s s.opcodeAtPc where
  ready := hr
  inBounds := hb
  high := by rw [State.opcodeAtPc, wordOfBytes_high, memRead_ok s (by omega)]
  low := by rw [State.opcodeAtPc, wordOfBytes_low, memRead_ok s (by omega)]

/-- A TICK in FAULTED (R86). -/
theorem step_faulted {s : State} {r : FaultRecord} (h : s.fault = some r) : step s = .next s := by
  simp [step, tick, h]

/-- A TICK whose fetch is out of bounds (R83). -/
theorem step_fetchBounds {s : State} (hr : s.fault = none) (hb : ¬ s.pc.toNat + 1 ≤ 4095) :
    step s = .next (s.raise .fetchBounds s.pc 0 0) := by
  simp [step, tick, hr, hb, State.raiseFetch]

/-- A TICK that fetches `w` decodes and executes it after the advance (R81). -/
theorem step_fetches {s : State} {w : Word} (h : Fetches s w) : step s = executeOpcode w s.advancePc := by
  have hb := h.inBounds
  simp [step, tick, h.ready, hb, fetchOpcode_ok hb, h.eq_opcodeAtPc, State.opcodeAtPc]

/-- A TICK that fetches the word of an instruction runs that instruction. -/
theorem step_instr {s : State} {w : Word} {i : Instr} (h : Fetches s w) (hd : decodeWord w = .ok i) :
    step s = exec i s.advancePc := by
  simp [step_fetches h, executeOpcode, hd]

/-- A TICK that fetches any other word faults (R100). -/
theorem step_unsupported {s : State} {w : Word} {e : DecodeError} (h : Fetches s w)
    (hd : decodeWord w = .error e) :
    step s = .next (s.advancePc.raise .unsupportedOpcode s.pc w 0) := by
  simp [step_fetches h, executeOpcode, hd, State.raiseUnsupported]

/-- Everything one TICK can do. -/
theorem step_cases (s : State) :
    (∃ r, s.fault = some r ∧ step s = .next s) ∨
    (s.fault = none ∧ ¬ s.pc.toNat + 1 ≤ 4095 ∧ step s = .next (s.raise .fetchBounds s.pc 0 0)) ∨
    (∃ w i, Fetches s w ∧ decodeWord w = .ok i ∧ step s = exec i s.advancePc) ∨
    (∃ w e, Fetches s w ∧ decodeWord w = .error e ∧
      step s = .next (s.advancePc.raise .unsupportedOpcode s.pc w 0)) := by
  cases hf : s.fault with
  | some r => exact .inl ⟨r, rfl, step_faulted hf⟩
  | none =>
    by_cases hb : s.pc.toNat + 1 ≤ 4095
    · have h := fetches_opcodeAtPc hf hb
      cases hd : decodeWord s.opcodeAtPc with
      | ok i => exact .inr (.inr (.inl ⟨_, i, h, hd, step_instr h hd⟩))
      | error e => exact .inr (.inr (.inr ⟨_, e, h, hd, step_unsupported h hd⟩))
    · exact .inr (.inl ⟨rfl, hb, step_fetchBounds hf hb⟩)

/-- A touched pixel of R98 is one the drawing loop hits. -/
theorem touched_iff_spriteHits {s : State} {n : Nibble} (x y : Reg) (h : s.i.toNat + n.toNat ≤ 4096) {px py : Nat}
    (hx : px < 64) (hy : py < 32) :
    Touched s x y n px py ↔ Canvas.spriteHits (s.coord x) (s.coord y) (s.rowsAt n) px py := by
  have hn := n.isLt
  have hrow : ∀ k, k < n.toNat → (s.rowsAt n)[k]? = some (s.mem.get s.params (s.i.toNat + k)) := by
    intro k hk
    simp [State.rowsAt, List.getElem?_range hk]
  constructor
  · rintro ⟨dx, row, b, hdx, hr, hdx8, hrn, hb, hbit⟩
    refine ⟨row, dx, b, ?_, hdx8, hbit, ?_, ?_⟩
    · rw [hrow row hrn, (memRead_eq_ok.1 hb).2]
    · simp only [State.coord]; omega
    · simp only [State.coord]; omega
  · rintro ⟨row, dx, b, hk, hdx8, hbit, hpx, hpy⟩
    have hrn : row < n.toNat := by
      have := (List.getElem?_eq_some_iff.1 hk).1
      simpa using this
    rw [hrow row hrn, Option.some.injEq] at hk
    simp only [State.coord] at hpx hpy
    exact ⟨dx, row, b, by omega, by omega, hdx8, hrn, by rw [memRead_ok s (by omega), hk], hbit⟩

/-- The state of a DRW that draws differs in the display and VF only. -/
theorem State.drawSprite_eq (s : State) (x y : Reg) (rows : List Byte) :
    s.drawSprite x y rows =
      { s with display := (s.drawSprite x y rows).display, v := (s.drawSprite x y rows).v } := rfl

end Sys2Proof.Machine
end

