-- ==== Sys2Proof/Laws/Commands.lean ====
section
/-! SUPPORT. What each host command can do, once. -/

namespace Sys2Proof.Machine

/-- A LOAD in FAULTED returns the latched record (R106). -/
theorem loadCommand_faulted {s : State} {r : FaultRecord} (bytes : List Byte) (h : s.fault = some r) :
    loadCommand bytes s = .next (s, .fault r) := by
  simp [loadCommand, h]

/-- A LOAD that does not fit is rejected whole (R107). -/
theorem loadCommand_rejected {s : State} {bytes : List Byte} (hr : s.fault = none) (h : 3584 < bytes.length) :
    loadCommand bytes s = .next (s, .rejectedLoad bytes.length) := by
  simp [loadCommand, hr, show 4096 < 512 + bytes.length by omega]

/-- A LOAD that fits changes memory only, keeps its form, and leaves the bytes at 0x200 (R106). -/
theorem loadCommand_ok {s : State} {bytes : List Byte} (hr : s.fault = none) (h : bytes.length ≤ 3584) :
    ∃ t, loadCommand bytes s = .next (t, .ok) ∧ t = { s with mem := t.mem } ∧
      (Memory.wf s.params s.mem = true → Memory.wf s.params t.mem = true) ∧
      ∀ a, a < 4096 →
        t.mem.get s.params a =
          if h' : 0x200 ≤ a ∧ a < 0x200 + bytes.length then bytes[a - 0x200]'(by omega) else s.mem.get s.params a := by
  obtain ⟨t, ht, h1, h2, h3⟩ := memWriteMany_ok bytes s 0x200 (by omega)
  exact ⟨t, by simp [loadCommand, hr, ht, show ¬ 4096 < 512 + bytes.length by omega], h1, h2, h3⟩

/-- A state that a step leaves as it is stays so for any number of steps. -/
theorem run_of_step_fixed (M : Host.Core) (s : M.State) (h : M.step s = .next s) (k : Nat) : M.run k s = .next s := by
  induction k with
  | zero => rfl
  | succ k ih => simp only [Host.Core.run, h, ih]

theorem core_run_of_step_fixed {s : State} (h : step s = .next s) (k : Nat) : core.run k s = .next s :=
  run_of_step_fixed core s h k

/-- A TICK's answer, as the host sees it. -/
theorem tickCommand_of_step {s t : State} (h : step s = .next t) : tickCommand s = .next (t, tickResponse t) := by
  simp [tickCommand, h]

end Sys2Proof.Machine
end

