-- ==== Sys2Proof/Laws/PerInstr.lean ====
section
/-! SUPPORT. Statements about an instruction as it is written, constructor by constructor. -/

namespace Sys2Proof.Laws

/-- The pattern of an instruction's row in spec/opcode_table.json. -/
def rowPattern : Instr → Word
  | .cls => 0x00E0#16
  | .jp _ => 0x1000#16
  | .ld _ _ => 0x6000#16
  | .add _ _ => 0x7000#16
  | .ldI _ => 0xA000#16
  | .drw _ _ _ => 0xD000#16

/-- The mask of an instruction's row in spec/opcode_table.json. -/
def rowMask : Instr → Word
  | .cls => 0xFFFF#16
  | .jp _ => 0xF000#16
  | .ld _ _ => 0xF000#16
  | .add _ _ => 0xF000#16
  | .ldI _ => 0xF000#16
  | .drw _ _ _ => 0xF000#16

/-- The encoded word selects the instruction's own row: `opcode & mask = match` (R65). -/
def EncodedRow.Statement (i : Instr) : Prop := encode i &&& rowMask i = rowPattern i

/-- A register number's four bits lie below bit 4. -/
theorem regWord_high (x : Reg) (k : Nat) (hk : 4 ≤ k) : (regWord x).getLsbD k = false := by
  simp only [regWord, BitVec.getLsbD_ofNat]
  have : x.val < 2 ^ k := lt_of_lt_of_le x.isLt (by
    calc 16 = 2 ^ 4 := by norm_num
      _ ≤ 2 ^ k := Nat.pow_le_pow_right (by norm_num) hk)
  simp [Nat.testBit_lt_two_pow this]

theorem EncodedRow.cls : EncodedRow.Statement .cls := rfl

theorem EncodedRow.jp (nnn : Addr) : EncodedRow.Statement (.jp nnn) := by
  apply BitVec.eq_of_getLsbD_eq
  intro k hk
  interval_cases k <;> simp [encode, rowMask, rowPattern]

theorem EncodedRow.ld (x : Reg) (kk : Byte) : EncodedRow.Statement (.ld x kk) := by
  apply BitVec.eq_of_getLsbD_eq
  intro k hk
  interval_cases k <;> simp [encode, rowMask, rowPattern, -BitVec.getLsbD_eq_getElem, regWord_high]

theorem EncodedRow.add (x : Reg) (kk : Byte) : EncodedRow.Statement (.add x kk) := by
  apply BitVec.eq_of_getLsbD_eq
  intro k hk
  interval_cases k <;> simp [encode, rowMask, rowPattern, -BitVec.getLsbD_eq_getElem, regWord_high]

theorem EncodedRow.ldI (nnn : Addr) : EncodedRow.Statement (.ldI nnn) := by
  apply BitVec.eq_of_getLsbD_eq
  intro k hk
  interval_cases k <;> simp [encode, rowMask, rowPattern]

theorem EncodedRow.drw (x y : Reg) (n : Nibble) : EncodedRow.Statement (.drw x y n) := by
  apply BitVec.eq_of_getLsbD_eq
  intro k hk
  interval_cases k <;> simp [encode, rowMask, rowPattern, -BitVec.getLsbD_eq_getElem, regWord_high]

end Sys2Proof.Laws
end

