-- ==== Sys2Proof/Laws/Stack.lean ====
section
/-! SUPPORT. What push and pop can do, once. -/

namespace Sys2Proof.Machine

/-- Everything a push can do (R102). -/
theorem push_cases (a opcode value : Word) (s : State) :
    (∃ h : s.sp.toNat < 16, push a opcode value s = (s.setStack s.sp.toNat h value).setSp (s.sp + 1)) ∨
    (16 ≤ s.sp.toNat ∧ push a opcode value s = s.raiseStack a opcode) := by
  by_cases h : s.sp.toNat < 16
  · exact .inl ⟨h, dif_pos h⟩
  · exact .inr ⟨by omega, dif_neg h⟩

/-- Everything a pop can do (R103). -/
theorem pop_cases (a opcode : Word) (s : State) :
    (∃ h : 0 < s.sp.toNat ∧ s.sp.toNat ≤ 16,
      pop a opcode s = (some (s.stack[s.sp.toNat - 1]'(by omega)), s.setSp (s.sp - 1))) ∨
    ((s.sp.toNat = 0 ∨ 16 < s.sp.toNat) ∧ pop a opcode s = (none, s.raiseStack a opcode)) := by
  by_cases h : 0 < s.sp.toNat ∧ s.sp.toNat ≤ 16
  · exact .inl ⟨h, dif_pos h⟩
  · exact .inr ⟨by omega, dif_neg h⟩

end Sys2Proof.Machine
end

