-- ==== Sys2Proof/Tests/Slice0.lean ====
section
/-! SUPPORT. Tests of the model. Every expected value is the spec's: the test id of 95_test_vectors.md or the rule
stands with each. The last part shows, for each statement with hypotheses, a state and operands that meet them. -/

open Sys2Proof Sys2Proof.Machine

namespace Sys2Proof.Tests

/-! ## Helpers -/

/-- The outcome is a next state with property `p`. -/
def nextHas (o : Host.Outcome State Fault Refusal) (p : State → Bool) : Bool :=
  match o with
  | .next t => p t
  | .fault _ => false
  | .refused _ => false

/-- "Fresh" of 95_test_vectors.md with the word `w` at 0x200, where PC points. -/
def withWord (w : Nat) (s : State) : State := s.withFetchWord 16 w

/-- Fresh, with the word `w` at 0x200. -/
def fresh (w : Nat) : State := withWord w State.reset

/-- The bytes at 0x300 on, and `I` there. -/
def withSprite (bytes : List Byte) (s : State) : State :=
  ((bytes.zipIdx.foldl fun t b => t.putByte (0x300 + b.2) b.1) s).setI 0x300

/-- The display with the listed entries lit. -/
def lit (ks : List Nat) : Display :=
  ks.foldl (fun d k => Display.setPixel d (k % 64) (k / 64) true) Display.dark

/-- The lit entries, rising: the set the vectors of 95_test_vectors.md list. -/
def litOf (s : State) : List Nat := (displayView s).zipIdx.filterMap fun c => if c.1 then some c.2 else none

/-- Fresh in the XOR mode. -/
def xorReset : State := State.resetWith ⟨.xor, defaultFont⟩

/-- A FAULTED core: the state after T-UNS-1. -/
def faulted : State := { fresh 0x00EE with pc := 0x0202, fault := some ⟨.unsupportedOpcode, 0x0200, 0x00EE, 0⟩ }

/-! ## Well-formedness: a line out of range for each check (R68) -/

theorem test_jp_out_of_range : (AsmLine.jp 0x1000).assemble = none := by decide
theorem test_ld_register_out_of_range : (AsmLine.ld 16 0).assemble = none := by decide
theorem test_ld_byte_out_of_range : (AsmLine.ld 0 256).assemble = none := by decide
theorem test_add_register_out_of_range : (AsmLine.add 16 0).assemble = none := by decide
theorem test_add_byte_out_of_range : (AsmLine.add 0 256).assemble = none := by decide
theorem test_ldI_out_of_range : (AsmLine.ldI 0x1000).assemble = none := by decide
theorem test_drw_x_out_of_range : (AsmLine.drw 16 0 0).assemble = none := by decide
theorem test_drw_y_out_of_range : (AsmLine.drw 0 16 0).assemble = none := by decide
theorem test_drw_nibble_out_of_range : (AsmLine.drw 0 0 16).assemble = none := by decide

/-- R71: "LD VA, 0x05" is 6A 05, and is spelled so. -/
theorem test_ld_spelled_and_encoded :
    (AsmLine.ld 10 5).text = "LD VA, 0x05" ∧ (AsmLine.ld 10 5).assemble.map encodeBytes = some [0x6A, 0x05] := by
  decide

/-- R71: "DRW V0, V1, 2" is D0 12, and is spelled so. -/
theorem test_drw_spelled_and_encoded :
    (AsmLine.drw 0 1 2).text = "DRW V0, V1, 2" ∧ (AsmLine.drw 0 1 2).assemble.map encodeBytes = some [0xD0, 0x12] := by
  decide

/-! ## Decode: words written out from the spec's encodings (95_test_vectors.md 2.11, R71) -/

theorem test_decode_cls : decodeTableWord 16 0b0000000011100000 = some .cls := by decide
theorem test_decode_jp : decodeTableWord 16 0b0001001000110100 = some (.jp 0x234) := by decide
theorem test_decode_ld : decodeTableWord 16 0b0110101011111111 = some (.ld 10 0xFF) := by decide
theorem test_decode_add : decodeTableWord 16 0b0111000000000010 = some (.add 0 0x02) := by decide
theorem test_decode_ldI : decodeTableWord 16 0b1010001000001100 = some (.ldI 0x20C) := by decide
theorem test_decode_drw : decodeTableWord 16 0b1101101010111111 = some (.drw 10 11 15) := by decide
theorem test_decode_ret_unsupported : decodeWord 0x00EE = .error (.unsupported 0x00EE) := by decide
theorem test_decode_zero_unsupported : decodeWord 0x0000 = .error (.unsupported 0x0000) := by decide
/-- The other values of `d1` are unsupported (R65). -/
theorem test_decode_other_rows :
    [0x2300#16, 0x3000#16, 0x4000#16, 0x5000#16, 0x8124#16, 0x9000#16, 0xB000#16, 0xC000#16, 0xE000#16,
      0xFFFF#16].all (fun w => match decodeWord w with
        | .ok _ => false
        | .error e => e == .unsupported w) = true := by decide
/-- One byte is no instruction (R60). -/
theorem test_decode_truncated : decode [0x60] = .error (.truncated [0x60]) := by decide
theorem test_encode_drw : encode (.drw 10 11 15) = 0xDABF#16 := by decide

/-! ## The instructions (95_test_vectors.md part 2) -/

/-- T-CLS-1. -/
theorem test_cls : nextHas (step (withWord 0x00E0 ((State.reset.setDisplay (lit [0, 100, 2047])).setV vf 0x07)))
    (fun t => litOf t == [] && t.getV vf == 0x07 && t.pc == 0x202) = true := by decide +kernel

/-- S4: the target is not advanced. -/
theorem test_jp : nextHas (step (fresh 0x1234)) (fun t => t.pc == 0x0234 && t.fault == none) = true := by decide

/-- T-JP-7: V0 is not added. -/
theorem test_jp_ignores_v0 : nextHas (step (withWord 0x1234 (State.reset.setV 0 0x10))) (fun t => t.pc == 0x0234) = true := by
  decide

/-- T-LD-2: VF is an ordinary destination. -/
theorem test_ld_vf : nextHas (step (fresh 0x6F12)) (fun t => t.getV vf == 0x12 && t.pc == 0x202) = true := by decide

/-- T-LD-4. -/
theorem test_ld_other_register : nextHas (step (withWord 0x6477 (State.reset.setV 3 0x77)))
    (fun t => t.getV 4 == 0x77 && t.getV 3 == 0x77) = true := by decide

/-- T-ADD-1: the sum wraps and VF stays. -/
theorem test_add_wraps : nextHas (step (withWord 0x7002 (State.reset.setV 0 0xFF)))
    (fun t => t.getV 0 == 0x01 && t.getV vf == 0x00 && t.pc == 0x202) = true := by decide

/-- T-ADD-3: VF gets the sum, not a carry. -/
theorem test_add_vf : nextHas (step (withWord 0x7FFF (State.reset.setV vf 0x01))) (fun t => t.getV vf == 0x00) = true := by
  decide

/-- T-LDI-1. -/
theorem test_ldI : nextHas (step (fresh 0xA123)) (fun t => t.i == 0x0123 && t.pc == 0x202) = true := by decide

/-- T-LDI-4: all sixteen bits are written. -/
theorem test_ldI_high_bits : nextHas (step (withWord 0xA00A (State.reset.setI 0xF345))) (fun t => t.i == 0x000A) = true := by
  decide

/-- T-DRW-6: the second sprite row wraps to the top. -/
theorem test_drw_row_wraps : nextHas (step (withWord 0xD012 (withSprite [0xFF, 0x81] (State.reset.setV 1 31))))
    (fun t => litOf t == [0, 7, 1984, 1985, 1986, 1987, 1988, 1989, 1990, 1991] && t.getV vf == 0x00) = true := by
  decide +kernel

/-- T-DRW-12: both coordinates are the old VF, which then holds the flag. -/
theorem test_drw_vf_as_coordinate : nextHas (step (withWord 0xDFF1 (withSprite [0x80] (State.reset.setV vf 5))))
    (fun t => litOf t == [325] && t.getV vf == 0x00) = true := by decide +kernel

/-- T-DRW-8, SET and XOR: a collision. -/
theorem test_drw_collision :
    nextHas (step (withWord 0xD011 (withSprite [0x10] (State.reset.setDisplay (lit [3])))))
      (fun t => t.getV vf == 0x01 && litOf t == [3]) = true ∧
    nextHas (step (withWord 0xD011 (withSprite [0x10] (xorReset.setDisplay (lit [3])))))
      (fun t => t.getV vf == 0x01 && litOf t == []) = true := by decide +kernel

/-- T-DRW-19: glyph 0 of the default font. -/
theorem test_drw_font_glyph : nextHas (step (fresh 0xD015))
    (fun t => litOf t == [0, 1, 2, 3, 64, 67, 128, 131, 192, 195, 256, 257, 258, 259]) = true := by decide +kernel

/-! ## Faults and commands -/

/-- T-DRW-15. -/
theorem test_drw_out_of_bounds :
    nextHas (step (withWord 0xD012 (((State.reset.setI 0xFFF).setV vf 9).setDisplay (lit [5]))))
      (fun t => t.fault == some ⟨.spriteBounds, 0x0200, 0xD012, 0x0FFF⟩ && t.pc == 0x0202 && t.getV vf == 9 &&
        litOf t == [5]) = true := by decide +kernel

/-- T-UNS-1. -/
theorem test_unsupported : nextHas (step (fresh 0x00EE))
    (fun t => t.fault == some ⟨.unsupportedOpcode, 0x0200, 0x00EE, 0⟩ && t.pc == 0x0202) = true := by decide

/-- T-FET-4: `PC + 1` is a natural number and does not wrap. -/
theorem test_fetch_bounds : nextHas (step (State.reset.setPc 0xFFFF))
    (fun t => t.fault == some ⟨.fetchBounds, 0xFFFF, 0x0000, 0⟩ && t.pc == 0xFFFF) = true := by decide

/-- T-HOST-4: the tail of the first ROM stays. -/
theorem test_load_twice :
    nextHas (performAll [.load [0xAA, 0xAA, 0xAA], .load [0x60, 0x01]] State.reset)
      (fun t => t.mem == [(0x200, 0x60), (0x201, 0x01), (0x202, 0xAA)] && t.pc == 0x200) = true := by decide

/-- T-HOST-6: a LOAD in FAULTED returns the record. -/
theorem test_load_faulted :
    loadCommand [0x60, 0x01] faulted = .next (faulted, .fault ⟨.unsupportedOpcode, 0x0200, 0x00EE, 0⟩) := rfl

/-- T-HOST-11, first TIMER_TICK. -/
theorem test_timer_tick :
    (timerTickCommand { State.reset with dt := 2, st := 0 }).dt = 1 ∧
    (timerTickCommand { State.reset with dt := 2, st := 0 }).st = 0 := by decide

/-- T-STK-4: the last free slot. -/
theorem test_push_last : (push 0 0 0x0ABC (State.reset.setSp 15)).stack[15] = 0x0ABC ∧
    (push 0 0 0x0ABC (State.reset.setSp 15)).sp = 16 := by decide

/-- T-STK-3: pop on an empty stack. -/
theorem test_pop_empty : (pop 0x200 0 State.reset).1 = none ∧
    (pop 0x200 0 State.reset).2.fault = some ⟨.stackBounds, 0x200, 0, 0⟩ := by decide

/-- R120: the numbers of the error conditions. -/
theorem test_error_numbers :
    [(Response.rejectedLoad 3585).errorNumber, FaultCode.fetchBounds.number, FaultCode.unsupportedOpcode.number,
      FaultCode.stackBounds.number, FaultCode.spriteBounds.number, Response.ok.errorNumber] = [1, 2, 3, 4, 5, 0] := by
  decide

/-- S1: the font is at the bottom of memory; GK1 gives its last byte. -/
theorem test_font_at_reset : memRead State.reset 79 = .ok 0x80 ∧ memRead State.reset 80 = .ok 0x00 := by decide

/-! ## Witnesses: each statement's hypotheses can be met, at the boundaries too -/

theorem fresh_fetches_cls : Fetches (fresh 0x00E0) 0x00E0#16 := ⟨rfl, by decide, by decide, by decide⟩
theorem fresh_fetches_jp : Fetches (fresh 0x1FFF) 0x1FFF#16 := ⟨rfl, by decide, by decide, by decide⟩
theorem fresh_fetches_jpSelf : Fetches (fresh 0x1200) 0x1200#16 := ⟨rfl, by decide, by decide, by decide⟩
theorem fresh_fetches_ld : Fetches (fresh 0x6FFF) 0x6FFF#16 := ⟨rfl, by decide, by decide, by decide⟩
theorem fresh_fetches_add : Fetches (fresh 0x7FFF) 0x7FFF#16 := ⟨rfl, by decide, by decide, by decide⟩
theorem fresh_fetches_ldI : Fetches (fresh 0xAFFF) 0xAFFF#16 := ⟨rfl, by decide, by decide, by decide⟩
theorem fresh_fetches_ret : Fetches (fresh 0x00EE) 0x00EE#16 := ⟨rfl, by decide, by decide, by decide⟩
theorem reset_fetches_zero : Fetches State.reset 0x0000#16 := ⟨rfl, by decide, by decide, by decide⟩

/-- DecodeEncodeRoundTrip, EncodeDecodeRoundTrip. -/
theorem witness_decodes : (Instr.drw 15 0 15).wellFormed = true ∧ decodeWord 0xDF0F#16 = .ok (.drw 15 0 15) := by decide

/-- AssemblerRangesAndWords: the last operand in range and the first out of it, clause by clause. -/
theorem witness_ranges :
    (0xFFF ≤ 0xFFF ∧ 0xFFF < 0x1000) ∧ ((15 ≤ 15 ∧ 0xFF ≤ 0xFF) ∧ ¬(16 ≤ 15 ∧ 0xFF ≤ 0xFF)) ∧
    ((15 ≤ 15 ∧ 15 ≤ 15 ∧ 15 ≤ 15) ∧ ¬(15 ≤ 15 ∧ 15 ≤ 15 ∧ 16 ≤ 15)) := by decide

/-- StepRunsDecodedInstruction. -/
theorem witness_stepRuns : (Instr.ld 0 0xFF).wellFormed = true ∧ (fresh 0x60FF).fault = none ∧
    (fresh 0x60FF).pc.toNat + 1 ≤ 4095 ∧ memRead (fresh 0x60FF) (fresh 0x60FF).pc.toNat = .ok 0x60 ∧
    memRead (fresh 0x60FF) ((fresh 0x60FF).pc.toNat + 1) = .ok 0xFF ∧ decode [0x60, 0xFF] = .ok (.ld 0 0xFF, []) := by
  decide

/-- FetchOutOfBoundsFaults, first clause at its boundary. -/
theorem witness_fetchBounds : (State.reset.setPc 0x0FFF).fault = none ∧ 4095 < (State.reset.setPc 0x0FFF).pc.toNat + 1 := by
  decide

/-- FetchOutOfBoundsFaults, second clause (T-FET-2). -/
theorem witness_lastWord : (withWord 0x6005 (State.reset.setPc 0x0FFE)).pc = 0x0FFE ∧
    Fetches (withWord 0x6005 (State.reset.setPc 0x0FFE)) 0x6005#16 :=
  ⟨by decide, ⟨rfl, by decide, by decide, by decide⟩⟩

/-- UnsupportedOpcodeFaults. -/
theorem witness_unsupported : Fetches (fresh 0x00EE) 0x00EE#16 ∧ 0x00EE#16 ≠ 0x00E0#16 ∧
    ∀ d ∈ [0x1000#16, 0x6000#16, 0x7000#16, 0xA000#16, 0xD000#16], 0x00EE#16 &&& 0xF000#16 ≠ d :=
  ⟨fresh_fetches_ret, by decide, by simp⟩

/-- FaultedTickChangesNothing, and LoadPlacesBytes in FAULTED. -/
theorem witness_faulted : faulted.fault = some ⟨.unsupportedOpcode, 0x0200, 0x00EE, 0⟩ := rfl

/-- LatchedRecordStaysUntilReset: every other command, one after another. -/
theorem witness_latched : faulted.fault = some ⟨.unsupportedOpcode, 0x0200, 0x00EE, 0⟩ ∧
    Command.reset ∉ [Command.tick, .load [0x60], .getDisplay, .timerTick] ∧
    performAll [.tick, .load [0x60], .getDisplay, .timerTick] faulted = .next (timerTickCommand faulted) :=
  ⟨rfl, by decide, rfl⟩

/-- TickReturnsWhatItLatches: a READY core that runs and one that faults. -/
theorem witness_tickReturns : (fresh 0x1200).fault = none ∧ State.reset.fault = none := by decide

/-- DoneIsAFixedPoint, at 0x200. -/
theorem witness_done : DoneAt 0x200 (fresh 0x1200) := ⟨by decide, by decide, fresh_fetches_jpSelf⟩

/-- DoneIsAFixedPoint, at the highest address (R87: `a <= 0xFFE`). -/
theorem witness_done_last : DoneAt 0xFFE (withWord 0x1FFE (State.reset.setPc 0x0FFE)) :=
  ⟨by decide, by decide, ⟨rfl, by decide, by decide, by decide⟩⟩

/-- TickJumps, with the target 0xFFF of its last clause. -/
theorem witness_tickJumps : Fetches (fresh 0x1FFF) 0x1FFF#16 ∧ 0x1FFF#16 &&& 0xF000#16 = 0x1000#16 ∧
    (0x1FFF#16).extractLsb' 0 12 = 0xFFF := ⟨fresh_fetches_jp, by decide, by decide⟩

/-- TickLoadsImmediate, into VF. -/
theorem witness_tickLoads : Fetches (fresh 0x6FFF) 0x6FFF#16 ∧ 0x6FFF#16 &&& 0xF000#16 = 0x6000#16 ∧
    vf.val = ((0x6FFF#16).extractLsb' 8 4).toNat := ⟨fresh_fetches_ld, by decide, by decide⟩

/-- TickAddsImmediate, into VF. -/
theorem witness_tickAdds : Fetches (fresh 0x7FFF) 0x7FFF#16 ∧ 0x7FFF#16 &&& 0xF000#16 = 0x7000#16 ∧
    vf.val = ((0x7FFF#16).extractLsb' 8 4).toNat := ⟨fresh_fetches_add, by decide, by decide⟩

/-- TickSetsIndex. -/
theorem witness_tickSetsIndex : Fetches (fresh 0xAFFF) 0xAFFF#16 ∧ 0xAFFF#16 &&& 0xF000#16 = 0xA000#16 :=
  ⟨fresh_fetches_ldI, by decide⟩

/-- TickSpriteOutOfBoundsFaults at its boundary: `I = 0xFFF`, `n = 2` (R97). -/
theorem witness_tickSprite : Fetches (withWord 0xD012 (State.reset.setI 0xFFF)) 0xD012#16 ∧
    0xD012#16 &&& 0xF000#16 = 0xD000#16 ∧
    4096 < (withWord 0xD012 (State.reset.setI 0xFFF)).i.toNat + ((0xD012#16).extractLsb' 0 4).toNat :=
  ⟨⟨rfl, by decide, by decide, by decide⟩, by decide, by decide⟩

/-- DrawClosedForm at its boundary, `I + n = 4096`, and no pixel touched by a zero row. -/
theorem witness_draw_inBounds : (State.reset.setI 0xFFF).i.toNat + (1#4).toNat ≤ 4096 := by decide

/-- DrawClosedForm, DrawTwice: a touched pixel, lit before, so a collision (T-DRW-8). -/
theorem witness_draw_collision : ∃ px py, px < 64 ∧ py < 32 ∧
    Touched (withSprite [0x10] (State.reset.setDisplay (lit [3]))) 0 1 1 px py ∧
    Display.pixel (withSprite [0x10] (State.reset.setDisplay (lit [3]))).display px py = true :=
  ⟨3, 0, by decide, by decide, ⟨3, 0, 0x10, by decide, by decide, by decide, by decide, by decide, by decide⟩,
    by decide⟩

/-- DrawClosedForm: a pixel that is not touched, column 8 of a sprite eight wide at the left edge. -/
theorem witness_draw_untouched : ¬ Touched (withSprite [0xFF] State.reset) 0 1 1 8 0 := by
  rintro ⟨dx, row, b, h, -, h8, -⟩
  have hv : ((withSprite [0xFF] State.reset).getV 0).toNat = 0 := by decide
  rw [hv] at h
  omega

/-- DrawClosedForm: no collision on a dark display. -/
theorem witness_draw_noCollision : ¬ ∃ px py, px < 64 ∧ py < 32 ∧ Touched State.reset 0 1 5 px py ∧
    Display.pixel State.reset.display px py = true := by
  rintro ⟨px, py, -, -, -, h⟩
  have : Display.pixel State.reset.display px py = false := Display.pixel_dark px py
  simp [this] at h

/-- DrawTrapsOutOfBounds at its boundary, and with no rows at an `I` that no run reaches (T-DRW-22). -/
theorem witness_drawTraps : 4096 < (State.reset.setI 0xFFF).i.toNat + (2#4).toNat ∧
    4096 < (State.reset.setI 0x1001).i.toNat + (0#4).toNat := by decide

/-- DrawTwice in both modes, on a dark display, with a touched pixel. -/
theorem witness_drawTwice : (0 : Reg) ≠ vf ∧ (1 : Reg) ≠ vf ∧ State.reset.i.toNat + (5#4).toNat ≤ 4096 ∧
    State.reset.params.drawMode = .set ∧ xorReset.params.drawMode = .xor ∧
    (∀ k : Fin 2048, Display.entry xorReset.display k = false) ∧ Touched xorReset 0 1 5 0 0 :=
  ⟨by decide, by decide, by decide, rfl, rfl, Display.entry_dark,
    ⟨0, 0, 0xF0, by decide, by decide, by decide, by decide, by decide, by decide⟩⟩

/-- The DRW of T-DRW-8 over the lit entry 3, in SET. -/
def overLit : State := withSprite [0x10] (State.reset.setDisplay (lit [3]))

/-- DrawModesAgreeOnFlag, with a pixel the modes leave different, and on a DRW that faults in both. -/
theorem witness_drawModes :
    (∃ t u, exec (.drw 0 1 1) overLit = .next t ∧
      exec (.drw 0 1 1) { overLit with params := { overLit.params with drawMode := .xor } } = .next u ∧
      Display.pixel u.display 3 0 ≠ Display.pixel t.display 3 0) ∧
    ∃ t u, exec (.drw 0 1 2) (overLit.setI 0xFFF) = .next t ∧
      exec (.drw 0 1 2)
        { overLit.setI 0xFFF with params := { (overLit.setI 0xFFF).params with drawMode := .xor } } = .next u :=
  ⟨⟨_, _, execDrw_draws 0 1 (by decide), execDrw_draws 0 1 (by decide), by decide⟩,
    ⟨_, _, execDrw_faults 0 1 (by decide), execDrw_faults 0 1 (by decide)⟩⟩

/-- A READY core in SET at a DRW over the lit entry 3. -/
def drawOverLit : State := withWord 0xD011 (withSprite [0x10] (State.reset.setDisplay (lit [3])))

theorem drawOverLit_fetches : Fetches drawOverLit 0xD011#16 := ⟨rfl, by decide, by decide, by decide⟩

/-- SetModeNeverUnlights: a lit pixel, in SET, and a DRW over it. -/
theorem witness_setMode : drawOverLit.params.drawMode = .set ∧ ¬ Fetches drawOverLit 0x00E0#16 ∧
    (∃ t, step drawOverLit = .next t) ∧ Display.entry drawOverLit.display 3 = true :=
  ⟨rfl, fun h => absurd h.high (by decide),
    ⟨_, (step_instr (i := .drw 0 1 1) drawOverLit_fetches (by decide)).trans (execDrw_draws 0 1 (by decide))⟩,
    by decide +kernel⟩

/-- ExecFrame: each family answers a next state, DRW on both sides of its bound. -/
theorem witness_execFrame :
    [Instr.cls, .jp 0xFFF, .ld 15 0xFF, .add 15 0xFF, .ldI 0xFFF, .drw 0 1 1, .drw 0 1 2].all
      (fun i => nextHas (exec i (State.reset.setI 0xFFF)) fun t => t.sp == 0) = true := by decide +kernel

/-- OkTickChangesOneThing: a jump, and an instruction that goes on. -/
theorem witness_okTick : nextHas (step (fresh 0x1200)) (fun t => t.fault == none && t.pc == 0x200) = true ∧
    nextHas (step (fresh 0x6012)) (fun t => t.fault == none && t.pc == 0x202) = true := by decide

/-- FaultsArePrecise: one TICK for each of its three cases. -/
theorem witness_precise :
    nextHas (step (State.reset.setPc 0x0FFF)) (fun t => t.fault == some ⟨.fetchBounds, 0x0FFF, 0, 0⟩) = true ∧
    nextHas (step (fresh 0x2300)) (fun t => t.fault == some ⟨.unsupportedOpcode, 0x0200, 0x2300, 0⟩) = true ∧
    nextHas (step (withWord 0xD01F (State.reset.setI 0xFF2)))
      (fun t => t.fault == some ⟨.spriteBounds, 0x0200, 0xD01F, 0x0FF2⟩) = true := by decide

/-- DormantStateIsNeverRead. -/
theorem witness_dormant : ∃ t, step (fresh 0x1200) = .next t :=
  ⟨_, step_instr fresh_fetches_jpSelf (i := .jp 0x200) (by decide)⟩

theorem oversized_rejected :
    perform (.load (List.replicate 3585 0)) State.reset = .next (State.reset, .rejectedLoad 3585) := by
  have h : 3584 < (List.replicate 3585 (0 : Byte)).length := by rw [List.length_replicate]; decide
  have hr := loadCommand_rejected (s := State.reset) rfl h
  rw [List.length_replicate] at hr
  exact hr

/-- OnlyResetAndLoadWriteMemory: an accepted LOAD, and one rejected at the first length that does not fit (R107). -/
theorem witness_onlyLoad : (∃ t, perform (.load [0x12, 0x34]) State.reset = .next (t, .ok)) ∧
    perform (.load (List.replicate 3585 0)) State.reset = .next (State.reset, .rejectedLoad 3585) ∧
    Response.rejectedLoad 3585 ≠ .ok :=
  ⟨⟨_, rfl⟩, oversized_rejected, by decide⟩

/-- A state other than RESET's: a jump to itself at 0x200, and VF written. -/
def selfJump : State := (fresh 0x1200).setV vf 0xFF

theorem selfJump_fetches : Fetches selfJump 0x1200#16 := ⟨rfl, by decide, by decide, by decide⟩

theorem selfJump_low_memory (a : Nat) (ha : a < 0x200) : memRead selfJump a = memRead State.reset a := by
  show memRead ((State.reset.putByte 0x200 0x12).putByte 0x201 0x00) a = _
  rw [memRead_putByte _ _ _ _ (by omega), if_neg (by omega), memRead_putByte _ _ _ _ (by omega), if_neg (by omega)]

/-- StepKeepsInvariants. -/
theorem witness_invariants : CoreInv selfJump ∧ ∃ t, step selfJump = .next t :=
  ⟨{ pc_le := by decide, i_le := by decide, sp_zero := rfl, stack_zero := by decide, dt_zero := rfl, st_zero := rfl,
     keys_false := by decide, mem_wf := by decide,
     low_memory := fun a ha => by rw [selfJump_low_memory a ha, memRead_ok _ (by omega)]; rfl },
    ⟨_, step_instr (i := .jp 0x200) selfJump_fetches (by decide)⟩⟩

/-- CommandsKeepInvariants: a state that meets them, and every kind of command there. -/
theorem witness_commandInvariants : CoreInv selfJump ∧
    ∀ c ∈ [Command.reset, .load [0x12, 0x34], .tick, .getDisplay, .timerTick],
      ∃ t r, perform c selfJump = .next (t, r) := by
  refine ⟨witness_invariants.1, ?_⟩
  simp only [List.forall_mem_cons]
  exact ⟨⟨_, _, rfl⟩, ⟨_, _, rfl⟩,
    ⟨_, _, tickCommand_of_step (step_instr (i := .jp 0x200) selfJump_fetches (by decide))⟩,
    ⟨_, _, rfl⟩, ⟨_, _, rfl⟩, by simp⟩

/-- ReachableStatesMeetInvariants, StackBoundsIsNeverRaised: a reachable FAULTED state. -/
theorem witness_reachable_faulted : ∃ s r, Reachable defaultParams s ∧ s.fault = some r :=
  ⟨_, _, .command .tick _ .reset (tickCommand_of_step (step_unsupported reset_fetches_zero (e := .unsupported 0)
    (by decide))), rfl⟩

/-- LoadPlacesBytes at its largest length, OversizedLoadIsRejected at the next, LaunchStateOfARom at the largest. -/
theorem witness_load_lengths : State.reset.fault = none ∧ (List.replicate 3584 (0xAB : Byte)).length ≤ 3584 ∧
    0x200 + (List.replicate 3585 (0xAB : Byte)).length > 4096 := by
  exact ⟨rfl, List.length_replicate.le, by rw [List.length_replicate]; decide⟩

/-- DisplayViewIsRowMajor at the last pixel, entry 2047. -/
theorem witness_displayView : (63 < 64 ∧ 31 < 32) ∧ 63 + 64 * 31 = 2047 := by decide

/-- PushWritesThenIncrements at both sides of its bound, and PopDecrementsThenReads at its four. -/
theorem witness_stack_bounds : (State.reset.setSp 15).sp.toNat < 16 ∧ 16 ≤ (State.reset.setSp 16).sp.toNat ∧
    (0 < (State.reset.setSp 16).sp.toNat ∧ (State.reset.setSp 16).sp.toNat ≤ 16) ∧
    (0 < (State.reset.setSp 1).sp.toNat ∧ (State.reset.setSp 1).sp.toNat ≤ 16) ∧ State.reset.sp.toNat = 0 ∧
    16 < (State.reset.setSp 17).sp.toNat := by decide

end Sys2Proof.Tests
end

/-! ## The state RESET leaves (10_state.md section 7, R35) -/

namespace Sys2Proof.Machine

/-- An address from 0x050 on is not of the font (R27, R41). -/
theorem unlisted_of_ge {p : Params} {a : Nat} (h : 80 ≤ a) : unlisted p a = 0x00 := dif_neg (by omega)

/-- An address below 0x050 holds its byte of the font (R27, R41). -/
theorem unlisted_of_lt {p : Params} {a : Nat} (h : a < 80) : unlisted p a = p.font[a] := dif_pos h

/-- RESET lists no byte, so every address reads as what is there unlisted. -/
theorem memRead_resetWith (p : Params) {a : Nat} (h : a < 4096) :
    memRead (State.resetWith p) a = .ok (unlisted p a) :=
  memRead_ok _ h

/-- The table of R35 at any value of the parameters: the items that are arrays entry by entry, memory split at the
end of the font, the others by definition. -/
theorem State.resetWith_resetTable (p : Params) : ResetTable (State.resetWith p) where
  v x := Vector.getElem_replicate x.isLt
  i := rfl
  pc := rfl
  stack k := Vector.getElem_replicate k.isLt
  sp := rfl
  font a := by
    have ha : a.val < 4096 := by omega
    rw [memRead_resetWith p ha, unlisted_of_lt a.isLt]
    rfl
  mem a hfont hmem := by
    have ha : a < 4096 := by omega
    rw [memRead_resetWith p ha, unlisted_of_ge hfont]
  display := Display.entry_dark
  keys k := Vector.getElem_replicate k.isLt
  dt := rfl
  st := rfl
  fault := rfl

/-- Settles O40: RESET in any state leaves `State.resetWith` of that state's own parameters. -/
theorem resetLeavesTheTable : Obligations.ResetLeavesTheTable :=
  ⟨State.resetWith_resetTable defaultParams,
    fun s => ⟨State.resetWith s.params, rfl, State.resetWith_resetTable s.params, rfl⟩⟩

end Sys2Proof.Machine

/-! ## The core is never stuck (40_cycle.md section 7, R89) -/

namespace Sys2Proof

/-- The word of a jump selects row 2 of R65, whose address field is the jump's own. -/
theorem decodeWord_encode_jp (a : Addr) : decodeWord (encode (.jp a)) = .ok (.jp a) := by
  have hrow : encode (.jp a) &&& 0xF000#16 = 0x1000#16 := Laws.EncodedRow.jp a
  have hcls : encode (.jp a) ≠ 0x00E0#16 := fun h => absurd (h ▸ hrow) (by decide)
  have hfield : fieldNNN (encode (.jp a)) = a := by
    apply BitVec.eq_of_getLsbD_eq
    intro k hk
    interval_cases k <;> simp [encode, fieldNNN]
  rw [decodeWord_eq, if_neg hcls, if_pos hrow, hfield]

end Sys2Proof

namespace Sys2Proof.Machine

/-- No instruction waits or stops: each answers a next state, a DRW out of bounds too (R122). -/
theorem exec_answers_next (i : Instr) (s : State) : ∃ t, exec i s = .next t := by
  obtain h | ⟨_, _, h⟩ | ⟨_, _, h⟩ | ⟨_, h⟩ | ⟨_, _, _, _, _, h⟩ | ⟨_, _, _, _, _, h⟩ := exec_cases i s <;>
    exact ⟨_, h⟩

/-- A TICK that executes answers as its instruction does; the others latch a record or find one latched. -/
theorem step_answers_next (s : State) : ∃ t, step s = .next t := by
  obtain ⟨_, _, h⟩ | ⟨_, _, h⟩ | ⟨_, i, _, _, h⟩ | ⟨_, _, _, _, h⟩ := step_cases s
  · exact ⟨_, h⟩
  · exact ⟨_, h⟩
  · rw [h]
    exact exec_answers_next i s.advancePc
  · exact ⟨_, h⟩

/-- A LOAD that does not copy its bytes still responds, in FAULTED and for bytes that do not fit (R106, R107). -/
theorem loadCommand_answers_next (bytes : List Byte) (s : State) : ∃ t r, loadCommand bytes s = .next (t, r) := by
  cases hf : s.fault with
  | some _ => exact ⟨_, _, loadCommand_faulted bytes hf⟩
  | none =>
    by_cases hlen : bytes.length ≤ 3584
    · obtain ⟨t, ht, -⟩ := loadCommand_ok hf hlen
      exact ⟨t, _, ht⟩
    · exact ⟨_, _, loadCommand_rejected hf (by omega)⟩

theorem perform_answers_next (c : Command) (s : State) : ∃ t r, perform c s = .next (t, r) := by
  cases c with
  | reset => exact ⟨_, _, rfl⟩
  | load bytes => exact loadCommand_answers_next bytes s
  | tick =>
    obtain ⟨t, ht⟩ := step_answers_next s
    exact ⟨t, _, tickCommand_of_step ht⟩
  | getDisplay => exact ⟨_, _, rfl⟩
  | timerTick => exact ⟨_, _, rfl⟩

/-- At a jump to itself the jump undoes the only thing the fetch changed, the advance of PC (R87). -/
theorem step_of_doneAt {a : Addr} {s : State} (h : DoneAt a s) : step s = .next s := by
  obtain ⟨hpc, -, hfetch⟩ := h
  have hback : s.advancePc.setPc (a.setWidth 16) = s := by
    rw [← show s.pc = a.setWidth 16 from hpc]
    rfl
  rw [step_instr hfetch (decodeWord_encode_jp a), execJp_eq, hback]

/-- The word 1200 at the entry point, nothing else changed since RESET: done at 0x200. -/
theorem doneAt_placeWord_reset : DoneAt 0x200 (State.reset.placeWord 0x200 0x1200) :=
  ⟨rfl, by decide, rfl, by decide, by decide, by decide⟩

/-- Settles O7: no TICK and no command is without its outcome, and the run from a jump to itself never leaves it. -/
theorem everyCommandHasAnOutcome : Obligations.EveryCommandHasAnOutcome :=
  ⟨step_answers_next, perform_answers_next, State.reset.placeWord 0x200 0x1200, fun k =>
    ⟨_, core_run_of_step_fixed (step_of_doneAt doneAt_placeWord_reset) k, rfl⟩⟩

end Sys2Proof.Machine

/-! ## CLS, from fetch to effect (41_cls.md, R90) -/

namespace Sys2Proof

/-- 00E0 selects row 1 of R65, the one row that is a whole word. -/
theorem decodeWord_cls : decodeWord 0x00E0#16 = .ok .cls := by
  rw [decodeWord_eq, if_pos rfl]

end Sys2Proof

namespace Sys2Proof.Machine

/-- A TICK that fetches 00E0 darkens the display of the state after the advance, the fetch's own effect. -/
theorem step_cls {s : State} (h : Fetches s 0x00E0#16) :
    step s = .next (s.advancePc.setDisplay Display.dark) := by
  rw [step_instr h decodeWord_cls, execCls_eq]

/-- Settles O14: the display is the dark one, and undoing it and the advance of PC gives the state before back. -/
theorem tickClearsDisplay : Obligations.TickClearsDisplay := by
  intro s h
  exact ⟨s.advancePc.setDisplay Display.dark, step_cls h, Display.entry_dark, rfl, rfl⟩

end Sys2Proof.Machine

/-! ## JP, from fetch to effect (42_jp.md, R91) -/

namespace Sys2Proof

/-- Every 1NNN selects row 2 of R65: its first nibble keeps it apart from 00E0, the one row above. -/
theorem decodeWord_jp {w : Word} (h : w &&& 0xF000#16 = 0x1000#16) : decodeWord w = .ok (.jp (fieldNNN w)) := by
  have hcls : w ≠ 0x00E0#16 := by
    rintro rfl
    exact absurd h (by decide)
  rw [decodeWord_eq, if_neg hcls, if_pos h]

end Sys2Proof

namespace Sys2Proof.Machine

/-- A TICK that fetches 1NNN sets PC and does nothing else: the jump overwrites the fetch's advance of PC. -/
theorem step_jp {s : State} {w : Word} (h : Fetches s w) (hw : w &&& 0xF000#16 = 0x1000#16) :
    step s = .next (s.setPc (immAddr (fieldNNN w))) := by
  rw [step_instr h (decodeWord_jp hw), execJp_eq]
  rfl

/-- The largest jump target is 0xFFF, the last address of memory. -/
theorem immAddr_toNat_le (nnn : Addr) : (immAddr nnn).toNat ≤ 0xFFF := by
  have hlt : nnn.toNat < 4096 := nnn.isLt
  have hzext : (immAddr nnn).toNat = nnn.toNat := BitVec.toNat_setWidth_of_le (by decide)
  omega

/-- A READY core whose PC is 0xFFF has no second byte to fetch, so its TICK latches FETCH_BOUNDS there (R83). -/
theorem step_setPc_0xFFF {s : State} (hr : Ready s) :
    step (s.setPc 0x0FFF) = .next ((s.setPc 0x0FFF).raise .fetchBounds 0x0FFF 0 0) := by
  have hb : ¬ (0x0FFF : Word).toNat + 1 ≤ 4095 := by decide
  exact step_fetchBounds (s := s.setPc 0x0FFF) hr hb

/-- Settles O15: the jump is one write of PC, and a target of 0xFFF leaves the core READY with no word to fetch. -/
theorem tickJumps : Obligations.TickJumps := by
  intro s w h hw
  refine ⟨s.setPc (immAddr (fieldNNN w)), step_jp h hw, rfl, immAddr_toNat_le _, rfl, fun hnnn => ?_⟩
  have htarget : immAddr (fieldNNN w) = 0x0FFF := congrArg immAddr hnnn
  rw [htarget]
  exact ⟨_, _, step_setPc_0xFFF h.ready, rfl, rfl, rfl⟩

end Sys2Proof.Machine

/-! ## LD Vx, byte and ADD Vx, byte, from fetch to effect (43_ld_add_imm.md, R92, R93) -/

namespace Sys2Proof

/-- The first nibble of 00E0 is 0, so a word whose first nibble is not 0 does not select row 1 of R65. -/
theorem ne_cls_of_and_F000_ne_zero {w : Word} (h : w &&& 0xF000#16 ≠ 0x0000#16) : w ≠ 0x00E0#16 := by
  rintro rfl
  exact h rfl

/-- Every 6XKK selects row 3 of R65: its first nibble keeps it apart from the two rows above. -/
theorem decodeWord_ld {w : Word} (h : w &&& 0xF000#16 = 0x6000#16) :
    decodeWord w = .ok (.ld (fieldX w) (fieldKK w)) := by
  have hcls : w ≠ 0x00E0#16 := ne_cls_of_and_F000_ne_zero (h ▸ by decide)
  have hjp : w &&& 0xF000#16 ≠ 0x1000#16 := h ▸ by decide
  rw [decodeWord_eq, if_neg hcls, if_neg hjp, if_pos h]

/-- Every 7XKK selects row 4 of R65: its first nibble keeps it apart from the three rows above. -/
theorem decodeWord_add {w : Word} (h : w &&& 0xF000#16 = 0x7000#16) :
    decodeWord w = .ok (.add (fieldX w) (fieldKK w)) := by
  have hcls : w ≠ 0x00E0#16 := ne_cls_of_and_F000_ne_zero (h ▸ by decide)
  have hjp : w &&& 0xF000#16 ≠ 0x1000#16 := h ▸ by decide
  have hld : w &&& 0xF000#16 ≠ 0x6000#16 := h ▸ by decide
  rw [decodeWord_eq, if_neg hcls, if_neg hjp, if_neg hld, if_pos h]

/-- The field `x` is the one register whose number is `opcode[11:8]` (R62). -/
theorem eq_fieldX {w : Word} {x : Reg} (h : x.val = (w.extractLsb' 8 4).toNat) : x = fieldX w :=
  Fin.ext h

end Sys2Proof

namespace Sys2Proof.Machine

/-- A TICK that fetches 6XKK advances PC and writes the immediate to `V[x]`. -/
theorem step_ld {s : State} {w : Word} (h : Fetches s w) (hw : w &&& 0xF000#16 = 0x6000#16) :
    step s = .next (s.advancePc.setV (fieldX w) (fieldKK w)) := by
  rw [step_instr h (decodeWord_ld hw), execLd_eq]

/-- A TICK that fetches 7XKK advances PC and writes the wrapping sum to `V[x]`, and to no other register. -/
theorem step_add {s : State} {w : Word} (h : Fetches s w) (hw : w &&& 0xF000#16 = 0x7000#16) :
    step s = .next (s.advancePc.setV (fieldX w) (s.getV (fieldX w) + fieldKK w)) := by
  rw [step_instr h (decodeWord_add hw), execAdd_eq, State.getV_advancePc]

/-- A written register reads as what was written. -/
theorem State.getV_setV_same (s : State) (x : Reg) (b : Byte) : (s.setV x b).getV x = b := by
  rw [State.getV_setV, if_pos rfl]

/-- A TICK whose one effect is a register write leaves the other registers and, but for the advance of PC, the rest
of the state. -/
theorem advancePc_setV_frame (s : State) (x : Reg) (b : Byte) :
    (∀ y : Reg, y ≠ x → (s.advancePc.setV x b).getV y = s.getV y) ∧ (s.advancePc.setV x b).pc = s.pc + 2 ∧
      { s.advancePc.setV x b with v := s.v, pc := s.pc } = s := by
  refine ⟨fun y hy => ?_, rfl, rfl⟩
  rw [State.getV_setV, if_neg hy, State.getV_advancePc]

/-- Settles O16: the step is one register write after the advance, of the immediate itself. -/
theorem tickLoadsImmediate : Obligations.TickLoadsImmediate := by
  intro s w x h hw hx
  obtain rfl := eq_fieldX hx
  exact ⟨_, step_ld h hw, State.getV_setV_same _ _ _, advancePc_setV_frame s _ _⟩

/-- Settles O17: the step is one register write after the advance, of a sum of bytes, which wraps at 256. VF is
written only as the destination `x = 15`. -/
theorem tickAddsImmediate : Obligations.TickAddsImmediate := by
  intro s w x h hw hx
  obtain rfl := eq_fieldX hx
  refine ⟨_, step_add h hw, ?_, advancePc_setV_frame s _ _⟩
  rw [State.getV_setV_same, BitVec.toNat_add]
  rfl

end Sys2Proof.Machine

/-! ## LD I, addr, from fetch to effect (44_ld_i.md, R94) -/

namespace Sys2Proof

/-- Every ANNN selects row 5 of R65: its first nibble keeps it apart from the four rows above. -/
theorem decodeWord_ldI {w : Word} (h : w &&& 0xF000#16 = 0xA000#16) : decodeWord w = .ok (.ldI (fieldNNN w)) := by
  have hcls : w ≠ 0x00E0#16 := ne_cls_of_and_F000_ne_zero (h ▸ by decide)
  have hjp : w &&& 0xF000#16 ≠ 0x1000#16 := h ▸ by decide
  have hld : w &&& 0xF000#16 ≠ 0x6000#16 := h ▸ by decide
  have hadd : w &&& 0xF000#16 ≠ 0x7000#16 := h ▸ by decide
  rw [decodeWord_eq, if_neg hcls, if_neg hjp, if_neg hld, if_neg hadd, if_pos h]

end Sys2Proof

namespace Sys2Proof.Machine

/-- Sixteen bits hold every 12-bit address, so zero extension keeps its value (R64). -/
theorem immAddr_toNat (nnn : Addr) : (immAddr nnn).toNat = nnn.toNat :=
  BitVec.toNat_setWidth_of_le (by decide)

/-- A TICK that fetches ANNN advances PC and overwrites `I` with the zero-extended address. -/
theorem step_ldI {s : State} {w : Word} (h : Fetches s w) (hw : w &&& 0xF000#16 = 0xA000#16) :
    step s = .next (s.advancePc.setI (immAddr (fieldNNN w))) := by
  rw [step_instr h (decodeWord_ldI hw), execLdI_eq]
  rfl

/-- Settles O18: the step is one write of the whole of `I` after the advance; undoing the two gives the state before
back. -/
theorem tickSetsIndex : Obligations.TickSetsIndex := by
  intro s w h hw
  exact ⟨s.advancePc.setI (immAddr (fieldNNN w)), step_ldI h hw, rfl, immAddr_toNat (fieldNNN w), rfl, rfl⟩

end Sys2Proof.Machine

/-! ## LOAD bounds and GET_DISPLAY (48_host_operations.md, R107, R108) -/

namespace Sys2Proof.Machine

/-- The rows one after another are the library's flattening of the display, whose entries it gives by row and
column. -/
theorem displayView_eq_toList_flatten (s : State) : displayView s = s.display.flatten.toList :=
  calc displayView s
    _ = (s.display.toList.map Vector.toList).flatten := List.flatMap_def
    _ = (s.display.toArray.map Vector.toArray).flatten.toList := by
      rw [Array.toList_flatten, Array.toList_map, List.map_map]
      rfl

theorem displayView_length (s : State) : (displayView s).length = 2048 := by
  rw [displayView_eq_toList_flatten, Vector.length_toList]

/-- The `k`-th boolean of the view is `D[k]`: column `k mod 64` of row `k / 64`, in the view as in R28. -/
theorem displayView_getElem? (s : State) (k : Fin 2048) :
    (displayView s)[k.val]? = some (Display.entry s.display k) := by
  have hrow : k.val / 64 < 32 := by omega
  rw [displayView_eq_toList_flatten, Vector.getElem?_toList, Vector.getElem?_eq_getElem k.isLt,
    Vector.getElem_flatten]
  simp [Display.entry, Display.pixel, Nat.mod_eq_of_lt hrow]

/-- Settles O45: the view lists the entries by their index, and entry `x + 64 y` is pixel `(x, y)`. -/
theorem displayViewIsRowMajor : Obligations.DisplayViewIsRowMajor := by
  intro s
  refine ⟨displayView s, rfl, displayView_length s, displayView_getElem? s, fun x y hx hy => ?_⟩
  rw [← Display.entry_eq_pixel s.display hx hy]
  exact displayView_getElem? s ⟨x + 64 * y, by omega⟩

/-- Settles O43: the two outcomes of a LOAD in READY, split at 3584 bytes, the length that fills memory from 0x200. -/
theorem oversizedLoadIsRejected : Obligations.OversizedLoadIsRejected := by
  intro bytes s hr
  refine ⟨fun h => loadCommand_rejected hr (by omega), fun h => ?_⟩
  obtain ⟨t, ht, -⟩ := loadCommand_ok hr (show bytes.length ≤ 3584 by omega)
  exact ⟨t, ht⟩

end Sys2Proof.Machine

/-! ## Encode and decode (30_encoding.md sections 3 and 5, R62, R65, R68) -/

namespace Sys2Proof

/-- Every DXYN selects row 6 of R65: its first nibble keeps it apart from the five rows above. -/
theorem decodeWord_drw {w : Word} (h : w &&& 0xF000#16 = 0xD000#16) :
    decodeWord w = .ok (.drw (fieldX w) (fieldY w) (fieldN w)) := by
  have hcls : w ≠ 0x00E0#16 := ne_cls_of_and_F000_ne_zero (h ▸ by decide)
  have hjp : w &&& 0xF000#16 ≠ 0x1000#16 := h ▸ by decide
  have hld : w &&& 0xF000#16 ≠ 0x6000#16 := h ▸ by decide
  have hadd : w &&& 0xF000#16 ≠ 0x7000#16 := h ▸ by decide
  have hldI : w &&& 0xF000#16 ≠ 0xA000#16 := h ▸ by decide
  rw [decodeWord_eq, if_neg hcls, if_neg hjp, if_neg hld, if_neg hadd, if_neg hldI, if_pos h]

/-! The fields of a word, and the word of an instruction, as numbers: a field is a quotient and a remainder of the
word, and the word is the sum of its fields at their places. -/

theorem fieldX_val (w : Word) : (fieldX w).val = w.toNat / 256 % 16 := by
  simp [fieldX, Nat.shiftRight_eq_div_pow]

theorem fieldY_val (w : Word) : (fieldY w).val = w.toNat / 16 % 16 := by
  simp [fieldY, Nat.shiftRight_eq_div_pow]

theorem fieldN_toNat (w : Word) : (fieldN w).toNat = w.toNat % 16 := by
  simp [fieldN]

theorem fieldKK_toNat (w : Word) : (fieldKK w).toNat = w.toNat % 256 := by
  simp [fieldKK]

theorem fieldNNN_toNat (w : Word) : (fieldNNN w).toNat = w.toNat % 4096 := by
  simp [fieldNNN]

/-- The first nibble is the quotient by 4096. -/
theorem toNat_div_4096_of_and_F000 {w : Word} (d : Nibble) (h : w &&& 0xF000#16 = d.setWidth 16 <<< 12) :
    w.toNat / 4096 = d.toNat := by
  have hlt := w.isLt
  have hd : w.extractLsb' 12 4 = d := (and_F000_eq_iff w d).1 h
  have hquot : (w.extractLsb' 12 4).toNat = w.toNat / 4096 % 16 := by
    simp [Nat.shiftRight_eq_div_pow]
  rw [hd] at hquot
  omega

/-- Bits that fill the free places of a word add to it. -/
theorem toNat_or_eq_add {u v : Word} (k : Nat) (hu : 2 ^ k ∣ u.toNat) (hv : v.toNat < 2 ^ k) :
    (u ||| v).toNat = u.toNat + v.toNat := by
  obtain ⟨a, ha⟩ := hu
  rw [BitVec.toNat_or, ha, Nat.two_pow_add_eq_or_of_lt hv]

theorem regWord_shiftLeft_toNat (x : Reg) {k : Nat} (hk : k ≤ 8) : (regWord x <<< k).toNat = x.val * 2 ^ k := by
  have hreg : (regWord x).toNat = x.val := Nat.mod_eq_of_lt (by omega)
  have hfit : x.val * 2 ^ k < 2 ^ 16 :=
    calc x.val * 2 ^ k
      _ ≤ 15 * 2 ^ 8 := Nat.mul_le_mul (by omega) (Nat.pow_le_pow_right (by decide) hk)
      _ < 2 ^ 16 := by decide
  rw [BitVec.toNat_shiftLeft, hreg, Nat.shiftLeft_eq, Nat.mod_eq_of_lt hfit]

/-- A word `d NNN`. -/
theorem toNat_or_nnn {u : Word} (hu : 4096 ∣ u.toNat) (nnn : Addr) :
    (u ||| nnn.setWidth 16).toNat = u.toNat + nnn.toNat := by
  have hnnn : (nnn.setWidth 16).toNat = nnn.toNat := BitVec.toNat_setWidth_of_le (by decide)
  rw [toNat_or_eq_add 12 hu (hnnn ▸ nnn.isLt), hnnn]

/-- A word `d X..`, its lower byte still free. -/
theorem toNat_or_x {u : Word} (hu : 4096 ∣ u.toNat) (x : Reg) :
    (u ||| regWord x <<< 8).toNat = u.toNat + 256 * x.val := by
  have hx : (regWord x <<< 8).toNat = x.val * 256 := regWord_shiftLeft_toNat x (by decide)
  rw [toNat_or_eq_add 12 hu (by omega), hx, Nat.mul_comm]

/-- A word `d XKK`. -/
theorem toNat_or_x_kk {u : Word} (hu : 4096 ∣ u.toNat) (x : Reg) (kk : Byte) :
    (u ||| regWord x <<< 8 ||| kk.setWidth 16).toNat = u.toNat + 256 * x.val + kk.toNat := by
  have hkk : (kk.setWidth 16).toNat = kk.toNat := BitVec.toNat_setWidth_of_le (by decide)
  have hux := toNat_or_x hu x
  rw [toNat_or_eq_add 8 (by omega) (hkk ▸ kk.isLt), hux, hkk]

/-- A word `d XYN`. -/
theorem toNat_or_x_y_n {u : Word} (hu : 4096 ∣ u.toNat) (x y : Reg) (n : Nibble) :
    (u ||| regWord x <<< 8 ||| regWord y <<< 4 ||| n.setWidth 16).toNat =
      u.toNat + 256 * x.val + 16 * y.val + n.toNat := by
  have hn : (n.setWidth 16).toNat = n.toNat := BitVec.toNat_setWidth_of_le (by decide)
  have hy : (regWord y <<< 4).toNat = y.val * 16 := regWord_shiftLeft_toNat y (by decide)
  have hux := toNat_or_x hu x
  have huxy : (u ||| regWord x <<< 8 ||| regWord y <<< 4).toNat = u.toNat + 256 * x.val + 16 * y.val := by
    rw [toNat_or_eq_add 8 (by omega) (by omega), hux, hy, Nat.mul_comm y.val]
  rw [toNat_or_eq_add 4 (by omega) (hn ▸ n.isLt), huxy, hn]

theorem encode_jp_toNat (nnn : Addr) : (encode (.jp nnn)).toNat = 0x1000 + nnn.toNat :=
  toNat_or_nnn (by decide) nnn

theorem encode_ld_toNat (x : Reg) (kk : Byte) : (encode (.ld x kk)).toNat = 0x6000 + 256 * x.val + kk.toNat :=
  toNat_or_x_kk (by decide) x kk

theorem encode_add_toNat (x : Reg) (kk : Byte) : (encode (.add x kk)).toNat = 0x7000 + 256 * x.val + kk.toNat :=
  toNat_or_x_kk (by decide) x kk

theorem encode_ldI_toNat (nnn : Addr) : (encode (.ldI nnn)).toNat = 0xA000 + nnn.toNat :=
  toNat_or_nnn (by decide) nnn

theorem encode_drw_toNat (x y : Reg) (n : Nibble) :
    (encode (.drw x y n)).toNat = 0xD000 + 256 * x.val + 16 * y.val + n.toNat :=
  toNat_or_x_y_n (by decide) x y n

/-! Decode of encode: the word selects the instruction's own row, and its fields are the operands. -/

theorem fieldX_encode_ld (x : Reg) (kk : Byte) : fieldX (encode (.ld x kk)) = x := by
  apply Fin.ext
  rw [fieldX_val, encode_ld_toNat]
  omega

theorem fieldKK_encode_ld (x : Reg) (kk : Byte) : fieldKK (encode (.ld x kk)) = kk := by
  apply BitVec.eq_of_toNat_eq
  rw [fieldKK_toNat, encode_ld_toNat]
  omega

theorem fieldX_encode_add (x : Reg) (kk : Byte) : fieldX (encode (.add x kk)) = x := by
  apply Fin.ext
  rw [fieldX_val, encode_add_toNat]
  omega

theorem fieldKK_encode_add (x : Reg) (kk : Byte) : fieldKK (encode (.add x kk)) = kk := by
  apply BitVec.eq_of_toNat_eq
  rw [fieldKK_toNat, encode_add_toNat]
  omega

theorem fieldNNN_encode_ldI (nnn : Addr) : fieldNNN (encode (.ldI nnn)) = nnn := by
  apply BitVec.eq_of_toNat_eq
  rw [fieldNNN_toNat, encode_ldI_toNat]
  omega

theorem fieldX_encode_drw (x y : Reg) (n : Nibble) : fieldX (encode (.drw x y n)) = x := by
  apply Fin.ext
  rw [fieldX_val, encode_drw_toNat]
  omega

theorem fieldY_encode_drw (x y : Reg) (n : Nibble) : fieldY (encode (.drw x y n)) = y := by
  apply Fin.ext
  rw [fieldY_val, encode_drw_toNat]
  omega

theorem fieldN_encode_drw (x y : Reg) (n : Nibble) : fieldN (encode (.drw x y n)) = n := by
  apply BitVec.eq_of_toNat_eq
  rw [fieldN_toNat, encode_drw_toNat]
  omega

theorem decodeWord_encode (i : Instr) : decodeWord (encode i) = .ok i := by
  cases i with
  | cls => exact decodeWord_cls
  | jp nnn => exact decodeWord_encode_jp nnn
  | ld x kk => rw [decodeWord_ld (Laws.EncodedRow.ld x kk), fieldX_encode_ld, fieldKK_encode_ld]
  | add x kk => rw [decodeWord_add (Laws.EncodedRow.add x kk), fieldX_encode_add, fieldKK_encode_add]
  | ldI nnn => rw [decodeWord_ldI (Laws.EncodedRow.ldI nnn), fieldNNN_encode_ldI]
  | drw x y n =>
    rw [decodeWord_drw (Laws.EncodedRow.drw x y n), fieldX_encode_drw, fieldY_encode_drw, fieldN_encode_drw]

/-- Settles O1: the word selects its own row with the operands as fields, and its two bytes make up the word again. -/
theorem decodeEncodeRoundTrip : Obligations.DecodeEncodeRoundTrip := by
  intro i rest _
  refine ⟨decodeWord_encode i, ?_⟩
  rw [encodeBytes, decode_bytesOfWord, decodeWord_encode]

/-- A supported word is the word of what it decodes to: first nibble and fields make up all its bits. -/
theorem encode_of_decodeWord {w : Word} {i : Instr} (h : decodeWord w = .ok i) : encode i = w := by
  rw [decodeWord_eq] at h
  split_ifs at h with hcls hjp hld hadd hldI hdrw <;> cases h
  · exact hcls.symm
  · have hd : w.toNat / 4096 = 1 := toNat_div_4096_of_and_F000 1 hjp
    apply BitVec.eq_of_toNat_eq
    rw [encode_jp_toNat, fieldNNN_toNat]
    omega
  · have hd : w.toNat / 4096 = 6 := toNat_div_4096_of_and_F000 6 hld
    apply BitVec.eq_of_toNat_eq
    rw [encode_ld_toNat, fieldX_val, fieldKK_toNat]
    omega
  · have hd : w.toNat / 4096 = 7 := toNat_div_4096_of_and_F000 7 hadd
    apply BitVec.eq_of_toNat_eq
    rw [encode_add_toNat, fieldX_val, fieldKK_toNat]
    omega
  · have hd : w.toNat / 4096 = 10 := toNat_div_4096_of_and_F000 10 hldI
    apply BitVec.eq_of_toNat_eq
    rw [encode_ldI_toNat, fieldNNN_toNat]
    omega
  · have hd : w.toNat / 4096 = 13 := toNat_div_4096_of_and_F000 13 hdrw
    apply BitVec.eq_of_toNat_eq
    rw [encode_drw_toNat, fieldX_val, fieldY_val, fieldN_toNat]
    omega

/-- Settles O2: the first nibble and the fields of a supported word put together are the word. -/
theorem encodeDecodeRoundTrip : Obligations.EncodeDecodeRoundTrip :=
  fun _ _ => encode_of_decodeWord

/-- What decides between the rows of R65: the first nibble of the pattern. -/
def OpcodeRow.firstNibble (r : OpcodeRow) : Word := r.pattern &&& 0xF000#16

/-- Every mask keeps the first nibble, so a word has the first nibble of each row it selects. -/
theorem OpcodeRow.firstNibble_of_selects {r : OpcodeRow} {w : Word} (hr : r ∈ opcodeTable)
    (h : r.selects w = true) : r.firstNibble = w &&& 0xF000#16 := by
  have hmasks : ∀ q ∈ opcodeTable, q.mask &&& 0xF000#16 = 0xF000#16 := by simp [opcodeTable]
  have hmask : r.mask &&& 0xF000#16 = 0xF000#16 := hmasks r hr
  have hsel : w &&& r.mask = r.pattern := of_decide_eq_true h
  rw [OpcodeRow.firstNibble, ← hsel, BitVec.and_assoc, hmask]

/-- Settles O3: the rows a word selects share its first nibble, and no two rows share theirs. -/
theorem opcodeRowsDisjoint : Obligations.OpcodeRowsDisjoint := by
  intro w
  have hnodup : ((opcodeTable.filter fun r => r.selects w).map OpcodeRow.firstNibble).Nodup :=
    (show (opcodeTable.map OpcodeRow.firstNibble).Nodup by decide).sublist (List.filter_sublist.map _)
  have hsame : (opcodeTable.filter fun r => r.selects w).map OpcodeRow.firstNibble =
      List.replicate (opcodeTable.filter fun r => r.selects w).length (w &&& 0xF000#16) := by
    rw [← List.map_const']
    refine List.map_congr_left fun r hr => ?_
    obtain ⟨hmem, hsel⟩ := List.mem_filter.1 hr
    exact OpcodeRow.firstNibble_of_selects hmem hsel
  rw [hsame] at hnodup
  exact List.nodup_replicate.1 hnodup

/-- A line whose operands are in range (`p`) has its number, one with an operand out of range is no instruction
(R68). -/
theorem AsmLine.assemble_toNat_or_none {l : AsmLine} {p : Prop} {word : Nat} (hwf : l.wellFormed = true ↔ p)
    (hword : p → (encode l.toInstr).toNat = word) :
    (p → (l.assemble.map fun i => (encode i).toNat) = some word) ∧ (¬ p → l.assemble = none) := by
  refine ⟨fun hp => ?_, fun hp => if_neg (hwf.not.2 hp)⟩
  rw [AsmLine.assemble, if_pos (hwf.2 hp), Option.map_some, hword hp]

theorem AsmLine.wellFormed_jp (a : Nat) : (AsmLine.jp a).wellFormed = true ↔ a ≤ 0xFFF := by
  simp only [AsmLine.wellFormed, decide_eq_true_eq]
  omega

theorem AsmLine.wellFormed_ld (x b : Nat) : (AsmLine.ld x b).wellFormed = true ↔ x ≤ 15 ∧ b ≤ 0xFF := by
  simp only [AsmLine.wellFormed, Bool.and_eq_true, decide_eq_true_eq]
  omega

theorem AsmLine.wellFormed_drw (x y n : Nat) :
    (AsmLine.drw x y n).wellFormed = true ↔ x ≤ 15 ∧ y ≤ 15 ∧ n ≤ 15 := by
  simp only [AsmLine.wellFormed, Bool.and_eq_true, decide_eq_true_eq]
  omega

theorem regOfNat_val_of_lt {x : Nat} (h : x < 16) : (regOfNat x).val = x := Nat.mod_eq_of_lt h

/-- Settles O4: line by line, the ranges are those of the line's check, and the number is the sum of the operands at
their places. JP and LD I share one check, LD and ADD another. -/
theorem assemblerRangesAndWords : Obligations.AssemblerRangesAndWords := by
  refine ⟨rfl, fun a => ?_, fun x b => ?_, fun x b => ?_, fun a => ?_, fun x y n => ?_⟩
  · rw [← Nat.not_le]
    refine AsmLine.assemble_toNat_or_none (AsmLine.wellFormed_jp a) fun ha => ?_
    rw [AsmLine.toInstr, encode_jp_toNat, BitVec.toNat_ofNat, Nat.mod_eq_of_lt (by omega)]
  · refine AsmLine.assemble_toNat_or_none (AsmLine.wellFormed_ld x b) fun ⟨hx, hb⟩ => ?_
    rw [AsmLine.toInstr, encode_ld_toNat, regOfNat_val_of_lt (by omega), BitVec.toNat_ofNat,
      Nat.mod_eq_of_lt (by omega)]
  · refine AsmLine.assemble_toNat_or_none (AsmLine.wellFormed_ld x b) fun ⟨hx, hb⟩ => ?_
    rw [AsmLine.toInstr, encode_add_toNat, regOfNat_val_of_lt (by omega), BitVec.toNat_ofNat,
      Nat.mod_eq_of_lt (by omega)]
  · rw [← Nat.not_le]
    refine AsmLine.assemble_toNat_or_none (AsmLine.wellFormed_jp a) fun ha => ?_
    rw [AsmLine.toInstr, encode_ldI_toNat, BitVec.toNat_ofNat, Nat.mod_eq_of_lt (by omega)]
  · refine AsmLine.assemble_toNat_or_none (AsmLine.wellFormed_drw x y n) fun ⟨hx, hy, hn⟩ => ?_
    rw [AsmLine.toInstr, encode_drw_toNat, regOfNat_val_of_lt (by omega), regOfNat_val_of_lt (by omega),
      BitVec.toNat_ofNat, Nat.mod_eq_of_lt (by omega)]

/-- Settles O5: nine closed facts, the decoder run on each pair of bytes. -/
theorem workedWordsDecode : Obligations.WorkedWordsDecode := by
  unfold Obligations.WorkedWordsDecode
  decide

end Sys2Proof

/-! ## What one instruction and one TICK write (20_memory.md section 3, 40_cycle.md section 2) -/

namespace Sys2Proof.Machine

/-- What no instruction and no TICK writes is in `t` as it is in `s`: memory, the fields no instruction uses, and the
parameters. -/
structure SameDormant (s t : State) : Prop where
  mem : t.mem = s.mem
  stack : t.stack = s.stack
  sp : t.sp = s.sp
  keys : t.keys = s.keys
  dt : t.dt = s.dt
  st : t.st = s.st
  params : t.params = s.params

theorem SameDormant.trans {s t u : State} (h : SameDormant s t) (h' : SameDormant t u) : SameDormant s u :=
  ⟨h'.mem.trans h.mem, h'.stack.trans h.stack, h'.sp.trans h.sp, h'.keys.trans h.keys, h'.dt.trans h.dt,
    h'.st.trans h.st, h'.params.trans h.params⟩

theorem SameDormant.memRead_eq {s t : State} (h : SameDormant s t) (a : Nat) : memRead t a = memRead s a :=
  memRead_congr h.mem h.params a

theorem sameDormant_advancePc (s : State) : SameDormant s s.advancePc := ⟨rfl, rfl, rfl, rfl, rfl, rfl, rfl⟩

/-- An instruction writes registers, `I`, PC, the display and the latch only. -/
theorem exec_sameDormant {i : Instr} {s t : State} (h : exec i s = .next t) : SameDormant s t := by
  obtain he | ⟨_, _, he⟩ | ⟨_, _, he⟩ | ⟨_, he⟩ | ⟨_, _, _, _, _, he⟩ | ⟨_, _, _, _, _, he⟩ := exec_cases i s <;>
  · rw [he] at h
    cases h
    exact ⟨rfl, rfl, rfl, rfl, rfl, rfl, rfl⟩

/-- So does a TICK: the fetch moves PC, and a fault goes to the latch. -/
theorem step_sameDormant {s t : State} (h : step s = .next t) : SameDormant s t := by
  obtain ⟨_, _, hs⟩ | ⟨_, _, hs⟩ | ⟨_, _, _, _, hs⟩ | ⟨_, _, _, _, hs⟩ := step_cases s <;> rw [hs] at h
  case inr.inr.inl => exact (sameDormant_advancePc s).trans (exec_sameDormant h)
  all_goals
    cases h
    exact ⟨rfl, rfl, rfl, rfl, rfl, rfl, rfl⟩

/-- Settles O31: none of these fields is among those a TICK writes, and a read depends on memory and parameters
only. -/
theorem tickKeepsMemoryAndDormantState : Obligations.TickKeepsMemoryAndDormantState := by
  intro s
  obtain ⟨t, h⟩ := step_answers_next s
  have hd := step_sameDormant h
  exact ⟨t, h, hd.mem, hd.memRead_eq, hd.stack, hd.sp, hd.keys, hd.dt, hd.st, hd.params⟩

/-- A register write leaves the other registers. -/
theorem State.getV_setV_of_ne (s : State) {x y : Reg} (b : Byte) (h : y ≠ x) : (s.setV x b).getV y = s.getV y := by
  rw [State.getV_setV, if_neg h]

/-- DRW writes VF and no other register. -/
theorem State.getV_drawSprite_of_ne (s : State) (x y : Reg) (rows : List Byte) {z : Reg} (hz : z ≠ vf) :
    (s.drawSprite x y rows).getV z = s.getV z := by
  rw [State.drawSprite, State.getV_setCollision, if_neg hz, State.getV_setDisplay]

/-- Settles O30: no instruction writes memory and the dormant state; what each family leaves besides is read off the
state it answers, DRW's on both sides of its bound. -/
theorem execFrame : Obligations.ExecFrame := by
  intro i s t h
  have hd := exec_sameDormant h
  refine ⟨hd.memRead_eq, hd.stack, hd.sp, hd.keys, hd.dt, hd.st, hd.params, ?_⟩
  cases i with
  | cls =>
    cases h
    exact ⟨rfl, rfl, rfl, rfl⟩
  | jp nnn =>
    cases h
    exact ⟨rfl, rfl, rfl, rfl⟩
  | ld x kk =>
    cases h
    exact ⟨fun _ => State.getV_setV_of_ne s _, rfl, rfl, rfl, rfl⟩
  | add x kk =>
    cases h
    exact ⟨fun _ => State.getV_setV_of_ne s _, rfl, rfl, rfl, rfl⟩
  | ldI nnn =>
    cases h
    exact ⟨rfl, rfl, rfl, rfl⟩
  | drw x y n =>
    by_cases hb : s.i.toNat + n.toNat ≤ 4096
    · rw [execDrw_draws x y hb] at h
      cases h
      exact ⟨fun z hz => State.getV_drawSprite_of_ne s x y _ hz, rfl, rfl, fun _ => rfl,
        fun hout => absurd hb (by omega)⟩
    · rw [execDrw_faults x y hb] at h
      cases h
      exact ⟨fun _ _ => rfl, rfl, rfl, fun hin => absurd hin hb, fun _ => ⟨rfl, rfl⟩⟩

/-- An instruction leaves `I` or writes an address of twelve bits to it (R94). -/
theorem exec_i {i : Instr} {s t : State} (h : exec i s = .next t) : t.i = s.i ∨ ∃ nnn, t.i = immAddr nnn := by
  obtain he | ⟨_, _, he⟩ | ⟨_, _, he⟩ | ⟨nnn, he⟩ | ⟨_, _, _, _, _, he⟩ | ⟨_, _, _, _, _, he⟩ := exec_cases i s <;>
    rw [he] at h <;> cases h
  case inr.inr.inr.inl => exact .inr ⟨nnn, rfl⟩
  all_goals exact .inl rfl

/-- An instruction leaves PC, or is a jump and writes its address (R91). -/
theorem exec_pc {i : Instr} {s t : State} (h : exec i s = .next t) :
    t.pc = s.pc ∨ ∃ nnn, i = .jp nnn ∧ t.pc = immAddr nnn := by
  obtain he | ⟨nnn, hi, he⟩ | ⟨_, _, he⟩ | ⟨_, he⟩ | ⟨_, _, _, _, _, he⟩ | ⟨_, _, _, _, _, he⟩ := exec_cases i s <;>
    rw [he] at h <;> cases h
  case inr.inl => exact .inr ⟨nnn, hi, rfl⟩
  all_goals exact .inl rfl

/-- An instruction leaves the latch, or is a DRW out of bounds and latches its record (R97). -/
theorem exec_fault {i : Instr} {s t : State} (h : exec i s = .next t) :
    t.fault = s.fault ∨ t = s.raise .spriteBounds s.instrAddr (encode i) s.i := by
  obtain he | ⟨_, _, he⟩ | ⟨_, _, he⟩ | ⟨_, he⟩ | ⟨_, _, _, _, _, he⟩ | ⟨_, _, _, _, _, he⟩ := exec_cases i s <;>
    rw [he] at h <;> cases h
  case inr.inr.inr.inr.inr => exact .inr rfl
  all_goals exact .inl rfl

end Sys2Proof.Machine

/-! ## The invariants (10_state.md section 6) -/

namespace Sys2Proof.Machine

/-- A fetch in bounds leaves PC at most at 0x1000, a jump at most at 0xFFF; a fault before the fetch leaves it as it
was. -/
theorem step_pc_le {s t : State} (hpc : s.pc.toNat ≤ 0x1000) (h : step s = .next t) : t.pc.toNat ≤ 0x1000 := by
  have hadvance : s.pc.toNat + 1 ≤ 4095 → (s.pc + 2).toNat ≤ 0x1000 := by
    intro hb
    have h2 : (s.pc + 2).toNat = s.pc.toNat + 2 := BitVec.toNat_add_of_lt (by change s.pc.toNat + 2 < 65536; omega)
    omega
  obtain ⟨_, _, hs⟩ | ⟨_, _, hs⟩ | ⟨_, _, hf, _, hs⟩ | ⟨_, _, hf, _, hs⟩ := step_cases s <;> rw [hs] at h
  · cases h
    exact hpc
  · cases h
    exact hpc
  · obtain hkept | ⟨nnn, -, hjump⟩ := exec_pc h
    · rw [hkept]
      exact hadvance hf.inBounds
    · have := immAddr_toNat_le nnn
      rw [hjump]
      omega
  · cases h
    exact hadvance hf.inBounds

theorem step_i_le {s t : State} (hi : s.i.toNat ≤ 0x0FFF) (h : step s = .next t) : t.i.toNat ≤ 0x0FFF := by
  obtain ⟨_, _, hs⟩ | ⟨_, _, hs⟩ | ⟨_, _, _, _, hs⟩ | ⟨_, _, _, _, hs⟩ := step_cases s <;> rw [hs] at h
  · cases h
    exact hi
  · cases h
    exact hi
  · obtain hkept | ⟨nnn, hset⟩ := exec_i h
    · rw [hkept]
      exact hi
    · rw [hset]
      exact immAddr_toNat_le nnn
  · cases h
    exact hi

/-- PC and `I` stay in their ranges, and every other clause is about fields no TICK writes. -/
theorem step_keeps_coreInv {s t : State} (hs : CoreInv s) (h : step s = .next t) : CoreInv t := by
  have hd := step_sameDormant h
  exact {
    pc_le := step_pc_le hs.pc_le h
    i_le := step_i_le hs.i_le h
    sp_zero := hd.sp.trans hs.sp_zero
    stack_zero := fun k => hd.stack ▸ hs.stack_zero k
    dt_zero := hd.dt.trans hs.dt_zero
    st_zero := hd.st.trans hs.st_zero
    keys_false := fun k => hd.keys ▸ hs.keys_false k
    low_memory := fun a ha => by rw [hd.memRead_eq, hd.params, hs.low_memory a ha]
    mem_wf := by rw [hd.mem, hd.params, hs.mem_wf] }

/-- Settles O37: the invariant by the bounds of PC and `I`, the parameters by what a TICK writes. -/
theorem stepKeepsInvariants : Obligations.StepKeepsInvariants :=
  fun _ _ hs h => ⟨step_keeps_coreInv hs h, (step_sameDormant h).params⟩

/-- Everything a LOAD can do: nothing, and then its response is no `ok`, or copy bytes that fit. -/
theorem loadCommand_cases {bytes : List Byte} {s t : State} {r : Response}
    (h : loadCommand bytes s = .next (t, r)) :
    (t = s ∧ r ≠ .ok) ∨
    (r = .ok ∧ ∃ m, t = { s with mem := m } ∧
      (Memory.wf s.params s.mem = true → Memory.wf s.params m = true) ∧
      ∀ a, a < 0x200 → m.get s.params a = s.mem.get s.params a) := by
  by_cases hf : s.fault = none
  · by_cases hlen : bytes.length ≤ 3584
    · obtain ⟨u, hu, hfields, hwf, hget⟩ := loadCommand_ok hf hlen
      rw [hu] at h
      cases h
      refine .inr ⟨rfl, t.mem, hfields, hwf, fun a ha => ?_⟩
      rw [hget a (by omega), dif_neg (by omega)]
    · rw [loadCommand_rejected hf (by omega)] at h
      cases h
      exact .inl ⟨rfl, by simp⟩
  · obtain ⟨f, hf⟩ := Option.ne_none_iff_exists'.1 hf
    rw [loadCommand_faulted bytes hf] at h
    cases h
    exact .inl ⟨rfl, by simp⟩

/-- The bytes below 0x200 read as before when memory changes from 0x200 on only. -/
theorem memRead_setMem_of_get_eq {s : State} {m : Memory} {a : Nat} (h : m.get s.params a = s.mem.get s.params a) :
    memRead { s with mem := m } a = memRead s a := by
  simp only [memRead, h]

theorem loadCommand_keeps_coreInv {bytes : List Byte} {s t : State} {r : Response} (hs : CoreInv s)
    (h : loadCommand bytes s = .next (t, r)) : CoreInv t ∧ t.params = s.params := by
  obtain ⟨rfl, -⟩ | ⟨-, m, rfl, hwf, hlow⟩ := loadCommand_cases h
  · exact ⟨hs, rfl⟩
  · refine ⟨{ hs with low_memory := fun a ha => ?_, mem_wf := hwf hs.mem_wf }, rfl⟩
    rw [memRead_setMem_of_get_eq (hlow a ha)]
    exact hs.low_memory a ha

theorem State.resetWith_coreInv (p : Params) : CoreInv (State.resetWith p) where
  pc_le := show (0x0200 : Word).toNat ≤ 0x1000 by decide
  i_le := show (0x0000 : Word).toNat ≤ 0x0FFF by decide
  sp_zero := rfl
  stack_zero := (State.resetWith_resetTable p).stack
  dt_zero := rfl
  st_zero := rfl
  keys_false := (State.resetWith_resetTable p).keys
  low_memory _ ha := memRead_resetWith p (by omega)
  mem_wf := State.resetWith_wf p

/-- A TICK's state is that of `step`. -/
theorem step_of_tickCommand {s t : State} {r : Response} (h : tickCommand s = .next (t, r)) :
    step s = .next t ∧ r = tickResponse t := by
  obtain ⟨u, hu⟩ := step_answers_next s
  rw [tickCommand_of_step hu] at h
  cases h
  exact ⟨hu, rfl⟩

/-- Both timers stand at zero, where TIMER_TICK leaves them (R110). -/
theorem timerTickCommand_keeps_coreInv {s : State} (hs : CoreInv s) : CoreInv (timerTickCommand s) :=
  { hs with
    dt_zero := congrArg countDown hs.dt_zero
    st_zero := congrArg countDown hs.st_zero }

/-- Settles O49: command by command; RESET starts afresh, and what LOAD writes lies above the low memory. -/
theorem commandsKeepInvariants : Obligations.CommandsKeepInvariants := by
  intro c s t r hs h
  cases c with
  | reset =>
    cases h
    exact ⟨State.resetWith_coreInv s.params, rfl⟩
  | load bytes => exact loadCommand_keeps_coreInv hs h
  | tick => exact stepKeepsInvariants s t hs (step_of_tickCommand h).1
  | getDisplay =>
    cases h
    exact ⟨hs, rfl⟩
  | timerTick =>
    cases h
    exact ⟨timerTickCommand_keeps_coreInv hs, rfl⟩

/-- Settles O36: RESET's table meets each clause, at the default parameters as at any others. -/
theorem resetMeetsInvariants : Obligations.ResetMeetsInvariants :=
  ⟨State.resetWith_coreInv defaultParams, State.resetWith_coreInv⟩

/-- Settles O38: RESET meets the invariants and every command keeps them. -/
theorem reachableStatesMeetInvariants : Obligations.ReachableStatesMeetInvariants := by
  intro p s hs
  induction hs with
  | reset => exact ⟨State.resetWith_coreInv p, rfl⟩
  | command c r _ h ih =>
    obtain ⟨hinv, hparams⟩ := ih
    obtain ⟨hinv', hparams'⟩ := commandsKeepInvariants c _ _ r hinv h
    exact ⟨hinv', hparams'.trans hparams⟩

end Sys2Proof.Machine

/-! ## The cycle, from fetch to fault (40_cycle.md sections 2 to 6, 46_unsupported.md, 60_exceptions.md) -/

namespace Sys2Proof

/-- Bytes that are one instruction and nothing more are the two of a word that decodes to it. -/
theorem decodeWord_of_decode {hi lo : Byte} {i : Instr} (h : decode [hi, lo] = .ok (i, [])) :
    decodeWord (wordOfBytes hi lo) = .ok i := by
  cases hw : decodeWord (wordOfBytes hi lo) with
  | ok j =>
    simp only [decode, hw] at h
    cases h
    rfl
  | error e =>
    simp only [decode, hw] at h
    cases h

/-- A word that selects none of the six rows is row 7 of R65. -/
theorem decodeWord_unsupported {w : Word} (hcls : w ≠ 0x00E0#16)
    (h : ∀ d ∈ [0x1000#16, 0x6000#16, 0x7000#16, 0xA000#16, 0xD000#16], w &&& 0xF000#16 ≠ d) :
    decodeWord w = .error (.unsupported w) := by
  simp only [List.forall_mem_cons] at h
  obtain ⟨hjp, hld, hadd, hldI, hdrw, -⟩ := h
  rw [decodeWord_eq, if_neg hcls, if_neg hjp, if_neg hld, if_neg hadd, if_neg hldI, if_neg hdrw]

/-- A word that decodes to a jump is a word `1NNN`, and the address is its `NNN`. -/
theorem and_F000_of_decodeWord_jp {w : Word} {nnn : Addr} (h : decodeWord w = .ok (.jp nnn)) :
    w &&& 0xF000#16 = 0x1000#16 ∧ nnn = fieldNNN w := by
  have hrow : w &&& 0xF000#16 = 0x1000#16 := by
    rw [← encode_of_decodeWord h]
    exact Laws.EncodedRow.jp nnn
  rw [decodeWord_jp hrow] at h
  cases h
  exact ⟨hrow, rfl⟩

end Sys2Proof

namespace Sys2Proof.Machine

/-- Settles O6: the two bytes are a fetched word, and it decodes as they do. -/
theorem stepRunsDecodedInstruction : Obligations.StepRunsDecodedInstruction := by
  intro s hi lo i _ hready hbound hhi hlo hdec
  have hfetch : Fetches s (wordOfBytes hi lo) :=
    ⟨hready, hbound, (wordOfBytes_high hi lo).symm ▸ hhi, (wordOfBytes_low hi lo).symm ▸ hlo⟩
  exact step_instr hfetch (decodeWord_of_decode hdec)

/-- A TICK that has fetched advances PC, and PC then stays there but for a jump. -/
theorem step_pc_of_fetches {s t : State} {w : Word} (hf : Fetches s w) (h : step s = .next t) :
    t.pc = s.pc + 2 ∨ (w &&& 0xF000#16 = 0x1000#16 ∧ t.pc = immAddr (fieldNNN w)) := by
  cases hd : decodeWord w with
  | ok i =>
    rw [step_instr hf hd] at h
    obtain hkept | ⟨nnn, rfl, hjump⟩ := exec_pc h
    · exact .inl hkept
    · obtain ⟨hrow, rfl⟩ := and_F000_of_decodeWord_jp hd
      exact .inr ⟨hrow, hjump⟩
  | error e =>
    rw [step_unsupported hf hd] at h
    cases h
    exact .inl rfl

/-- Everything a TICK of a READY core can latch, with the state it leaves (R120 to R122). -/
theorem step_fault_cases {s t : State} {r : FaultRecord} (hr : s.fault = none) (h : step s = .next t)
    (ht : t.fault = some r) :
    (4095 < s.pc.toNat + 1 ∧ r = ⟨.fetchBounds, s.pc, 0, 0⟩ ∧ t = { s with fault := some r }) ∨
    (∃ w, Fetches s w ∧ (r = ⟨.unsupportedOpcode, s.pc, w, 0⟩ ∨ r = ⟨.spriteBounds, s.pc, w, s.i⟩) ∧
      t = { s with pc := s.pc + 2, fault := some r }) := by
  obtain ⟨_, hf, _⟩ | ⟨_, hb, hs⟩ | ⟨w, i, hf, hd, hs⟩ | ⟨w, _, hf, _, hs⟩ := step_cases s
  · rw [hr] at hf
    cases hf
  · rw [hs] at h
    cases h
    cases ht
    exact .inl ⟨by omega, rfl, rfl⟩
  · rw [hs] at h
    obtain hkept | rfl := exec_fault h
    · rw [hkept, State.advancePc_fault, hr] at ht
      cases ht
    · rw [State.raise_fault, State.instrAddr_advancePc, encode_of_decodeWord hd] at ht
      cases ht
      refine .inr ⟨w, hf, .inr rfl, ?_⟩
      rw [State.instrAddr_advancePc, encode_of_decodeWord hd]
      rfl
  · rw [hs] at h
    cases h
    cases ht
    exact .inr ⟨w, hf, .inl rfl, rfl⟩

/-- Settles O8: the two sides of the fetch bound. At the last word PC + 2 is 0x1000, and a fetch has happened, so what
is latched is no FETCH_BOUNDS. -/
theorem fetchOutOfBoundsFaults : Obligations.FetchOutOfBoundsFaults := by
  refine ⟨fun s hr hb => step_fetchBounds hr (by omega), fun s w hpc hf => ?_⟩
  obtain ⟨t, h⟩ := step_answers_next s
  refine ⟨t, h, fun hw => ?_, fun r ht => ?_⟩
  · obtain hadv | ⟨hrow, -⟩ := step_pc_of_fetches hf h
    · rw [hadv, hpc]
      rfl
    · exact absurd hrow hw
  · have hb := hf.inBounds
    obtain ⟨hout, -, -⟩ | ⟨_, -, rfl | rfl, -⟩ := step_fault_cases hf.ready h ht
    · omega
    · simp
    · simp

/-- Settles O9: the word is row 7 of R65, and the fault changes nothing but the latch after the advance. -/
theorem unsupportedOpcodeFaults : Obligations.UnsupportedOpcodeFaults :=
  fun _ _ hf hcls h => step_unsupported hf (decodeWord_unsupported hcls h)

theorem tickResponse_of_fault {s : State} {r : FaultRecord} (h : s.fault = some r) : tickResponse s = .fault r := by
  simp [tickResponse, h]

theorem tickResponse_of_ready {s : State} (h : s.fault = none) : tickResponse s = .ok := by
  simp [tickResponse, h]

theorem tickCommand_faulted {s : State} {r : FaultRecord} (h : s.fault = some r) :
    tickCommand s = .next (s, .fault r) := by
  rw [tickCommand_of_step (step_faulted h), tickResponse_of_fault h]

/-- Settles O10: in FAULTED a step leaves the state, so any number does, and the record is what TICK returns. -/
theorem faultedTickChangesNothing : Obligations.FaultedTickChangesNothing :=
  fun _ _ h => ⟨step_faulted h, tickCommand_faulted h, core_run_of_step_fixed (step_faulted h)⟩

/-- Settles O12: the response is read off the latch of the state after the step. -/
theorem tickReturnsWhatItLatches : Obligations.TickReturnsWhatItLatches := by
  intro s _
  obtain ⟨t, h⟩ := step_answers_next s
  refine ⟨t, tickResponse t, tickCommand_of_step h, h, ?_⟩
  cases ht : t.fault with
  | none => exact .inl ⟨tickResponse_of_ready ht, rfl⟩
  | some r => exact .inr ⟨r, tickResponse_of_fault ht, rfl⟩

/-- Settles O13: a step at a jump to itself leaves the state, so any number does. -/
theorem doneIsAFixedPoint : Obligations.DoneIsAFixedPoint :=
  fun _ _ h => ⟨step_of_doneAt h, core_run_of_step_fixed (step_of_doneAt h)⟩

/-- Settles O19: the word is that of the DRW it decodes to, which faults before it draws. -/
theorem tickSpriteOutOfBoundsFaults : Obligations.TickSpriteOutOfBoundsFaults := by
  intro s w hf hw hout
  have hdec := decodeWord_drw hw
  have hbound : ¬ s.advancePc.i.toNat + (fieldN w).toNat ≤ 4096 := Nat.not_le.2 hout
  rw [step_instr hf hdec, execDrw_faults _ _ hbound, encode_of_decodeWord hdec, State.instrAddr_advancePc]
  rfl

/-- Settles O41: 0000 is unsupported, and RESET leaves it at the entry point, above the font. -/
theorem tickWithoutProgramFaults : Obligations.TickWithoutProgramFaults := by
  have hzero : ∀ s, Fetches s 0x0000#16 → step s = .next (s.advancePc.raise .unsupportedOpcode s.pc 0 0) :=
    fun s hf => step_unsupported hf (decodeWord_unsupported (by decide) (by simp))
  have hreset : Fetches State.reset 0x0000#16 :=
    ⟨rfl, by decide, memRead_resetWith _ (by decide), memRead_resetWith _ (by decide)⟩
  refine ⟨⟨_, hzero _ hreset, rfl, rfl, rfl⟩, fun s hf => ⟨_, hzero s hf, rfl, ?_⟩⟩
  exact State.eq_of_fields rfl rfl rfl rfl rfl rfl rfl rfl rfl rfl hf.ready.symm rfl

/-- Settles O33: read off everything a TICK can latch; clearing the latch and undoing PC gives the READY state back. -/
theorem faultsArePrecise : Obligations.FaultsArePrecise := by
  intro s t r hr h ht
  have hback : { s with fault := none } = s :=
    State.eq_of_fields rfl rfl rfl rfl rfl rfl rfl rfl rfl rfl hr.symm rfl
  obtain ⟨-, rfl, rfl⟩ | ⟨w, hf, rfl | rfl, rfl⟩ := step_fault_cases hr h ht
  · exact ⟨hback, rfl, .inl ⟨rfl, rfl, rfl, rfl⟩⟩
  · exact ⟨hback, rfl, .inr (.inl ⟨rfl, rfl, hf, rfl⟩)⟩
  · exact ⟨hback, rfl, .inr (.inr ⟨rfl, rfl, hf, rfl⟩)⟩

/-- A TICK of a READY core that latches nothing has run an instruction. -/
theorem step_ok_exec {s t : State} (hr : s.fault = none) (h : step s = .next t) (ht : t.fault = none) :
    ∃ w i, Fetches s w ∧ decodeWord w = .ok i ∧ exec i s.advancePc = .next t := by
  obtain ⟨_, hf, _⟩ | ⟨_, _, hs⟩ | ⟨w, i, hf, hd, hs⟩ | ⟨_, _, _, _, hs⟩ := step_cases s
  · rw [hr] at hf
    cases hf
  · rw [hs] at h
    cases h
    cases ht
  · exact ⟨w, i, hf, hd, hs ▸ h⟩
  · rw [hs] at h
    cases h
    cases ht

/-- Settles O32: the one write of each instruction, after the advance. -/
theorem okTickChangesOneThing : Obligations.OkTickChangesOneThing := by
  intro s t hr h ht
  obtain ⟨w, i, hf, -, he⟩ := step_ok_exec hr h ht
  have hpc : t.pc = s.pc + 2 ∨
      ∃ w, Fetches s w ∧ w &&& 0xF000#16 = 0x1000#16 ∧ t.pc = (w.extractLsb' 0 12).setWidth 16 :=
    (step_pc_of_fetches hf h).imp_right fun ⟨hrow, hjump⟩ => ⟨w, hf, hrow, hjump⟩
  refine ⟨hpc, ?_⟩
  obtain hc | ⟨nnn, -, hc⟩ | ⟨x, b, hc⟩ | ⟨nnn, hc⟩ | ⟨x, y, n, -, -, hc⟩ | ⟨x, y, n, -, -, hc⟩ :=
    exec_cases i s.advancePc <;> rw [hc] at he <;> cases he
  · exact .inr (.inr (.inl rfl))
  · exact .inr (.inl rfl)
  · exact .inl ⟨x, b, rfl⟩
  · exact .inr (.inl rfl)
  · exact .inr (.inr (.inr ⟨_, rfl⟩))
  · cases ht

/-- Settles O39: RESET clears the latch, a TICK latches one of its three records, and no other command writes it. -/
theorem stackBoundsIsNeverRaised : Obligations.StackBoundsIsNeverRaised := by
  intro p s r hs
  induction hs generalizing r with
  | reset => intro hfault; cases hfault
  | @command c resp s t _ h ih =>
    intro hfault
    cases c with
    | reset =>
      cases h
      cases hfault
    | load bytes =>
      obtain ⟨rfl, -⟩ | ⟨-, m, rfl, -, -⟩ := loadCommand_cases h
      · exact ih r hfault
      · exact ih r hfault
    | tick =>
      have hstep := (step_of_tickCommand h).1
      cases hr : s.fault with
      | some f =>
        rw [step_faulted hr] at hstep
        cases hstep
        exact ih r hfault
      | none =>
        obtain ⟨-, rfl, -⟩ | ⟨_, -, rfl | rfl, -⟩ := step_fault_cases hr hstep hfault <;> simp
    | getDisplay =>
      cases h
      exact ih r hfault
    | timerTick =>
      cases h
      exact ih r hfault

/-- `s` with other keys, timers, SP and stack (40_cycle.md section 7). -/
def State.withDormant (s : State) (keys : Vector Bool 16) (dt st sp : Byte) (stack : Vector Word 16) : State :=
  { s with keys := keys, dt := dt, st := st, sp := sp, stack := stack }

section
variable {keys : Vector Bool 16} {dt st sp : Byte} {stack : Vector Word 16}

/-- No instruction reads them: they pass through each of its outcomes. -/
theorem exec_withDormant {i : Instr} {s t : State} (h : exec i s = .next t) :
    exec i (s.withDormant keys dt st sp stack) = .next (t.withDormant keys dt st sp stack) := by
  cases i with
  | drw x y n =>
    by_cases hb : s.i.toNat + n.toNat ≤ 4096
    · rw [execDrw_draws x y hb] at h
      cases h
      exact execDrw_draws x y (s := s.withDormant keys dt st sp stack) hb
    · rw [execDrw_faults x y hb] at h
      cases h
      exact execDrw_faults x y (s := s.withDormant keys dt st sp stack) hb
  | _ =>
    cases h
    rfl

/-- Nor does the fetch. -/
theorem Fetches.withDormant {s : State} {w : Word} (h : Fetches s w) :
    Fetches (s.withDormant keys dt st sp stack) w :=
  ⟨h.ready, h.inBounds, h.high, h.low⟩

theorem step_withDormant {s t : State} (h : step s = .next t) :
    step (s.withDormant keys dt st sp stack) = .next (t.withDormant keys dt st sp stack) := by
  obtain ⟨r, hf, hs⟩ | ⟨hr, hb, hs⟩ | ⟨w, i, hf, hd, hs⟩ | ⟨w, e, hf, hd, hs⟩ := step_cases s <;> rw [hs] at h
  · cases h
    exact step_faulted (s := s.withDormant keys dt st sp stack) hf
  · cases h
    exact step_fetchBounds (s := s.withDormant keys dt st sp stack) hr hb
  · rw [step_instr hf.withDormant hd]
    exact exec_withDormant h
  · cases h
    exact step_unsupported hf.withDormant hd

end

/-- Settles O34: fetch, decode and every instruction read other fields only. -/
theorem dormantStateIsNeverRead : Obligations.DormantStateIsNeverRead :=
  fun _ _ _ _ _ _ _ h => step_withDormant h

end Sys2Proof.Machine

/-! ## The instructions in `exec` (41_cls.md to 44_ld_i.md) -/

namespace Sys2Proof.Machine

/-- Settles O20: the display is the dark one and the only field written. -/
theorem clsCompletes : Obligations.ClsCompletes :=
  fun s => ⟨_, execCls_eq s, Display.pixel_dark, rfl, memRead_congr rfl rfl⟩

/-- Settles O21: PC is the zero-extended address and the only field written. -/
theorem jpCompletes : Obligations.JpCompletes :=
  fun nnn s => ⟨_, execJp_eq nnn s, immAddr_toNat nnn, rfl, memRead_congr rfl rfl⟩

/-- Settles O22: one register is written, and a read of it gives the immediate. -/
theorem ldCompletes : Obligations.LdCompletes :=
  fun x kk s => ⟨_, execLd_eq x kk s, fun y => State.getV_setV s x y kk, rfl, memRead_congr rfl rfl⟩

/-- Settles O23: one register is written, with a sum of bytes, which wraps at 256. -/
theorem addCompletes : Obligations.AddCompletes := by
  intro x kk s
  refine ⟨_, execAdd_eq x kk s, fun y => ?_, rfl, memRead_congr rfl rfl⟩
  rw [State.getV_setV, apply_ite BitVec.toNat, BitVec.toNat_add]

/-- Settles O24: `I` is the zero-extended address and the only field written. -/
theorem ldICompletes : Obligations.LdICompletes :=
  fun nnn s => ⟨_, execLdI_eq nnn s, immAddr_toNat nnn, rfl, memRead_congr rfl rfl⟩

/-- Settles O26: the fault, at the address before the advance. -/
theorem drawTrapsOutOfBounds : Obligations.DrawTrapsOutOfBounds :=
  fun x y _ _ h => execDrw_faults x y (Nat.not_le.2 h)

end Sys2Proof.Machine

/-! ## The host's commands and the stack primitives (48_host_operations.md, 47_stack_primitives.md) -/

namespace Sys2Proof.Machine

/-- In FAULTED a command other than RESET writes the timers only. -/
theorem perform_faulted {c : Command} {s t : State} {r : FaultRecord} {resp : Response} (hf : s.fault = some r)
    (hc : c ≠ .reset) (h : perform c s = .next (t, resp)) : ∃ dt st, t = { s with dt := dt, st := st } := by
  cases c with
  | reset => exact absurd rfl hc
  | load bytes =>
    cases (loadCommand_faulted bytes hf).symm.trans h
    exact ⟨s.dt, s.st, rfl⟩
  | tick =>
    cases (tickCommand_faulted hf).symm.trans h
    exact ⟨s.dt, s.st, rfl⟩
  | getDisplay =>
    cases h
    exact ⟨s.dt, s.st, rfl⟩
  | timerTick =>
    cases h
    exact ⟨_, _, rfl⟩

/-- Settles O11: command by command, the timers are all that is written. -/
theorem latchedRecordStaysUntilReset : Obligations.LatchedRecordStaysUntilReset := by
  intro cs
  induction cs with
  | nil =>
    intro s t r hf _ h
    cases h
    exact ⟨hf, rfl⟩
  | cons c cs ih =>
    intro s t r hf hreset h
    obtain ⟨hc, hcs⟩ := List.ne_and_not_mem_of_not_mem_cons hreset
    obtain ⟨u, resp, hu⟩ := perform_answers_next c s
    simp only [performAll, hu] at h
    obtain ⟨dt, st, rfl⟩ := perform_faulted hf hc.symm hu
    obtain ⟨htf, hts⟩ := ih { s with dt := dt, st := st } t r hf hcs h
    exact ⟨htf, congrArg (fun v : State => { v with dt := s.dt, st := s.st }) hts⟩

/-- Settles O35: only a LOAD that copied changes memory, from 0x200 on. -/
theorem onlyResetAndLoadWriteMemory : Obligations.OnlyResetAndLoadWriteMemory := by
  intro c s t r hc h
  cases c with
  | reset => exact absurd rfl hc
  | load bytes =>
    obtain ⟨rfl, -⟩ | ⟨rfl, m, rfl, -, hlow⟩ := loadCommand_cases h
    · exact ⟨fun _ _ => rfl, fun _ => rfl⟩
    · exact ⟨fun a ha => memRead_setMem_of_get_eq (hlow a ha), fun hno => absurd rfl (hno bytes rfl)⟩
  | tick =>
    have hd := step_sameDormant (step_of_tickCommand h).1
    exact ⟨fun a _ => hd.memRead_eq a, fun _ => hd.mem⟩
  | getDisplay =>
    cases h
    exact ⟨fun _ _ => rfl, fun _ => rfl⟩
  | timerTick =>
    cases h
    exact ⟨fun a _ => memRead_congr rfl rfl a, fun _ => rfl⟩

/-- A LOAD that fits, as reads of memory: its bytes from 0x200 on, and every other read as before (R106). -/
theorem loadCommand_places {s : State} {bytes : List Byte} (hr : s.fault = none) (hlen : bytes.length ≤ 3584) :
    ∃ m, loadCommand bytes s = .next ({ s with mem := m }, .ok) ∧
      (∀ (k : Nat) (h : k < bytes.length), memRead { s with mem := m } (0x200 + k) = .ok bytes[k]) ∧
      ∀ a : Nat, (a < 0x200 ∨ 0x200 + bytes.length ≤ a) → memRead { s with mem := m } a = memRead s a := by
  obtain ⟨t, ht, hfields, -, hget⟩ := loadCommand_ok hr hlen
  refine ⟨t.mem, hfields ▸ ht, fun k hk => memRead_eq_ok.2 ⟨by omega, ?_⟩, fun a ha => ?_⟩
  · have hin : 0x200 ≤ 0x200 + k ∧ 0x200 + k < 0x200 + bytes.length := by omega
    rw [hget (0x200 + k) (by omega), dif_pos hin]
    simp
  · by_cases hmem : a < 4096
    · exact memRead_setMem_of_get_eq (by rw [hget a hmem, dif_neg (by omega)])
    · rw [memRead_error _ (by omega), memRead_error _ (by omega)]

/-- Settles O42: in READY the LOAD copies, in FAULTED it does nothing. -/
theorem loadPlacesBytes : Obligations.LoadPlacesBytes := by
  refine ⟨fun bytes s hr hlen => ?_, fun bytes s r hf => loadCommand_faulted bytes hf⟩
  obtain ⟨m, hm, hbytes, hother⟩ := loadCommand_places hr hlen
  exact ⟨_, hm, rfl, hbytes, hother⟩

/-- Settles O44: RESET leaves READY, so the LOAD after it copies; it is reached by that one command. -/
theorem launchStateOfARom : Obligations.LaunchStateOfARom := by
  intro p rom hlen
  obtain ⟨m, hm, hbytes, hother⟩ := loadCommand_places (s := State.resetWith p) rfl hlen
  exact ⟨_, hm, .command (.load rom) .ok .reset hm, rfl, hbytes, hother⟩

/-- Natural subtraction stops at zero as the timer does. -/
theorem countDown_toNat (t : Byte) : (countDown t).toNat = t.toNat - 1 := by
  unfold countDown
  split
  · bv_omega
  · omega

/-- Settles O46: each timer by `countDown`, and no other field is written. -/
theorem timerTickCountsDown : Obligations.TimerTickCountsDown :=
  fun s => ⟨timerTickCommand s, rfl, countDown_toNat s.dt, countDown_toNat s.st, rfl⟩

/-- Below 16 the eight bits of SP hold the next value. -/
theorem sp_succ_toNat {b : Byte} (h : b.toNat < 16) : (b + 1).toNat = b.toNat + 1 := by
  bv_omega

theorem sp_pred_toNat {b : Byte} (h : 0 < b.toNat) : (b - 1).toNat = b.toNat - 1 := by
  bv_omega

theorem push_of_lt (a op value : Word) {s : State} (h : s.sp.toNat < 16) :
    push a op value s = (s.setStack s.sp.toNat h value).setSp (s.sp + 1) := dif_pos h

/-- Settles O47: on each side of the bound the state is the one `push` answers there. -/
theorem pushWritesThenIncrements : Obligations.PushWritesThenIncrements := by
  refine fun a op value s => ⟨fun h => ?_, fun h => dif_neg (Nat.not_lt.2 h)⟩
  rw [push_of_lt a op value h]
  refine ⟨Vector.getElem_set_self h, sp_succ_toNat h, fun k hk => ?_, rfl⟩
  exact Vector.getElem_set_ne h k.isLt hk.symm

/-- A pop after a push finds SP in its bounds, and below it the entry just written (R103). -/
theorem pop_push (a op value : Word) {s : State} (h : s.sp.toNat < 16) :
    (pop a op (push a op value s)).1 = some value ∧ (pop a op (push a op value s)).2.sp = s.sp := by
  rw [push_of_lt a op value h]
  have hsp : (s.sp + 1).toNat = s.sp.toNat + 1 := sp_succ_toNat h
  obtain ⟨_, hp⟩ | ⟨hout, -⟩ := pop_cases a op ((s.setStack s.sp.toNat h value).setSp (s.sp + 1))
  · rw [hp]
    refine ⟨?_, BitVec.add_sub_cancel s.sp 1⟩
    simp only [State.setSp_stack, State.setStack_stack, State.setSp_sp, hsp, Nat.add_sub_cancel,
      Vector.getElem_set_self]
  · rw [State.setSp_sp] at hout
    omega

/-- Settles O48: on each side of the bounds the answer is the one of `pop` there; a pop undoes a push. -/
theorem popDecrementsThenReads : Obligations.PopDecrementsThenReads := by
  refine ⟨fun a op s => ⟨fun h => ?_, fun h => dif_neg (by omega)⟩, fun a op value s => pop_push a op value⟩
  have hp : pop a op s = (some (s.stack[s.sp.toNat - 1]'(by omega)), s.setSp (s.sp - 1)) := dif_pos h
  rw [hp]
  exact ⟨rfl, sp_pred_toNat h.1, rfl⟩

end Sys2Proof.Machine

/-! ## DRW (45_drw.md sections 1, 2 and 4, R95 to R99) -/

namespace Sys2Proof.Machine

/-- The coordinates of a pixel wrap (R28). -/
theorem Display.pixel_mod (d : Display) (px py : Nat) : d.pixel (px % 64) (py % 32) = d.pixel px py := by
  simp only [Display.pixel, Nat.mod_mod]

theorem Canvas.spriteHits_mod (x0 y0 : Nat) (rows : List Byte) (px py : Nat) :
    Canvas.spriteHits x0 y0 rows (px % 64) (py % 32) ↔ Canvas.spriteHits x0 y0 rows px py := by
  simp only [Canvas.spriteHits, Nat.mod_mod]

theorem touched_mod (s : State) (x y : Reg) (n : Nibble) (px py : Nat) :
    Touched s x y n (px % 64) (py % 32) ↔ Touched s x y n px py := by
  simp only [Touched, Int.natCast_emod, Nat.cast_ofNat, Int.emod_sub_emod]

/-- The loop hits the touched pixels of R98, whichever coordinates name them. -/
theorem spriteHits_iff_touched {s : State} {n : Nibble} (x y : Reg) (hb : s.i.toNat + n.toNat ≤ 4096) (px py : Nat) :
    Canvas.spriteHits (s.coord x) (s.coord y) (s.rowsAt n) px py ↔ Touched s x y n px py := by
  rw [← Canvas.spriteHits_mod, ← touched_mod,
    touched_iff_spriteHits x y hb (Nat.mod_lt px (by decide)) (Nat.mod_lt py (by decide))]

/-- A sprite has fewer rows than the display, so no pixel is touched twice. -/
theorem State.rowsAt_length_le (s : State) (n : Nibble) : (s.rowsAt n).length ≤ 32 := by
  rw [State.rowsAt_length]
  omega

/-- A pixel the DRW touches was lit before it (R98). -/
def Collides (s : State) (x y : Reg) (n : Nibble) : Prop :=
  ∃ px py, px < 64 ∧ py < 32 ∧ Touched s x y n px py ∧ Display.pixel s.display px py = true

theorem collides_of_touched {s : State} {x y : Reg} {n : Nibble} {px py : Nat} (ht : Touched s x y n px py)
    (hlit : Display.pixel s.display px py = true) : Collides s x y n :=
  ⟨px % 64, py % 32, Nat.mod_lt px (by decide), Nat.mod_lt py (by decide), (touched_mod s x y n px py).2 ht,
    (Display.pixel_mod s.display px py).trans hlit⟩

theorem collisionByte_eq_one (c : Bool) : collisionByte c = 0x01 ↔ c = true := by
  cases c <;> decide

theorem collisionByte_eq_zero (c : Bool) : collisionByte c = 0x00 ↔ ¬ c = true := by
  cases c <;> decide

section
variable {s : State} {n : Nibble} (x y : Reg) (hb : s.i.toNat + n.toNat ≤ 4096)
include hb

theorem drawSprite_pixel_of_touched {px py : Nat} (ht : Touched s x y n px py) :
    Display.pixel (s.drawSprite x y (s.rowsAt n)).display px py =
      pixelOp s.params.drawMode (Display.pixel s.display px py) := by
  exact (Canvas.drawRows_spec _ _ _ _ (s.rowsAt_length_le n) ⟨s.display, false⟩).1 px py ((spriteHits_iff_touched x y hb px py).2 ht)

theorem drawSprite_pixel_of_not_touched {px py : Nat} (ht : ¬ Touched s x y n px py) :
    Display.pixel (s.drawSprite x y (s.rowsAt n)).display px py = Display.pixel s.display px py := by
  exact (Canvas.drawRows_spec _ _ _ _ (s.rowsAt_length_le n) ⟨s.display, false⟩).2.1 px py
    ((spriteHits_iff_touched x y hb px py).not.2 ht)

/-- The loop's flag is the collision of R98, in both modes. -/
theorem drawRows_collision_iff :
    (Canvas.drawRows s.params.drawMode (s.coord x) (s.coord y) (s.rowsAt n) ⟨s.display, false⟩).collision = true ↔
      Collides s x y n := by
  obtain ⟨-, -, hflag⟩ :=
    Canvas.drawRows_spec s.params.drawMode (s.coord x) (s.coord y) _ (s.rowsAt_length_le n) ⟨s.display, false⟩
  rw [hflag]
  constructor
  · rintro (hfalse | ⟨px, py, hhit, hlit⟩)
    · cases hfalse
    · exact collides_of_touched ((spriteHits_iff_touched x y hb px py).1 hhit) hlit
  · rintro ⟨px, py, -, -, ht, hlit⟩
    exact .inr ⟨px, py, (spriteHits_iff_touched x y hb px py).2 ht, hlit⟩

theorem drawSprite_vf_eq_one : (s.drawSprite x y (s.rowsAt n)).getV vf = 0x01 ↔ Collides s x y n := by
  rw [State.drawSprite, State.getV_setCollision, if_pos rfl, collisionByte_eq_one, drawRows_collision_iff x y hb]

theorem drawSprite_vf_eq_zero : (s.drawSprite x y (s.rowsAt n)).getV vf = 0x00 ↔ ¬ Collides s x y n := by
  rw [State.drawSprite, State.getV_setCollision, if_pos rfl, collisionByte_eq_zero, drawRows_collision_iff x y hb]

end

/-- Settles O25: a touched pixel gets the mode's value, every other stays, and VF is the collision. -/
theorem drawClosedForm : Obligations.DrawClosedForm := by
  intro x y n s hb
  refine ⟨_, execDrw_draws x y hb, fun px py _ _ => ⟨fun ht hset => ?_, fun ht hxor => ?_, ?_⟩,
    (drawSprite_vf_eq_one x y hb).2, (drawSprite_vf_eq_zero x y hb).2,
    fun z hz => State.getV_drawSprite_of_ne s x y _ hz, rfl, memRead_congr rfl rfl⟩
  · rw [drawSprite_pixel_of_touched x y hb ht, hset]
    rfl
  · rw [drawSprite_pixel_of_touched x y hb ht, hxor]
    rfl
  · exact drawSprite_pixel_of_not_touched x y hb

/-- A DRW whose coordinates are not in VF leaves what decides the touched pixels of a second one (R99). -/
theorem touched_drawSprite (s : State) {x y : Reg} (rows : List Byte) (hx : x ≠ vf) (hy : y ≠ vf) (n : Nibble)
    (px py : Nat) : Touched (s.drawSprite x y rows) x y n px py ↔ Touched s x y n px py := by
  simp only [Touched, State.getV_drawSprite_of_ne s x y rows hx, State.getV_drawSprite_of_ne s x y rows hy]
  rfl

section
variable {s t u : State} {x y : Reg} {n : Nibble} (hx : x ≠ vf) (hy : y ≠ vf) (hb : s.i.toNat + n.toNat ≤ 4096)
  (ht : t = s.drawSprite x y (s.rowsAt n)) (hu : u = t.drawSprite x y (t.rowsAt n))

include ht in
theorem inBounds_of_drawn (hb : s.i.toNat + n.toNat ≤ 4096) : t.i.toNat + n.toNat ≤ 4096 := by
  rw [ht]
  exact hb

include hx hy ht in
theorem touched_of_drawn (px py : Nat) : Touched t x y n px py ↔ Touched s x y n px py := by
  rw [ht]
  exact touched_drawSprite s _ hx hy n px py

include hx hy hb ht hu

/-- A touched pixel after the DRW is drawn twice: the mode's operation twice. -/
theorem drawTwice_pixel_of_touched {px py : Nat} (h : Touched s x y n px py) :
    Display.pixel u.display px py =
      pixelOp s.params.drawMode (pixelOp s.params.drawMode (Display.pixel s.display px py)) := by
  have hmode : t.params.drawMode = s.params.drawMode := by rw [ht]; rfl
  rw [hu, drawSprite_pixel_of_touched x y (inBounds_of_drawn ht hb) ((touched_of_drawn hx hy ht px py).2 h), hmode, ht,
    drawSprite_pixel_of_touched x y hb h]

theorem drawTwice_pixel_of_not_touched {px py : Nat} (h : ¬ Touched s x y n px py) :
    Display.pixel u.display px py = Display.pixel s.display px py := by
  rw [hu, drawSprite_pixel_of_not_touched x y (inBounds_of_drawn ht hb) ((touched_of_drawn hx hy ht px py).not.2 h), ht,
    drawSprite_pixel_of_not_touched x y hb h]

/-- Where the first DRW lit all it touched, the second collides exactly when the sprite touches a pixel. -/
theorem drawTwice_vf
    (hlit : ∀ px py, px < 64 → py < 32 → Touched s x y n px py → Display.pixel t.display px py = true) :
    (∃ px py, px < 64 ∧ py < 32 ∧ Touched s x y n px py) ↔ u.getV vf = 0x01 := by
  rw [hu, drawSprite_vf_eq_one x y (inBounds_of_drawn ht hb)]
  constructor
  · rintro ⟨px, py, hpx, hpy, h⟩
    exact ⟨px, py, hpx, hpy, (touched_of_drawn hx hy ht px py).2 h, hlit px py hpx hpy h⟩
  · rintro ⟨px, py, hpx, hpy, h, -⟩
    exact ⟨px, py, hpx, hpy, (touched_of_drawn hx hy ht px py).1 h⟩

end

/-- Settles O27: toggling twice is nothing and setting twice is setting; the flag of the second is about the pixels the
first left lit. -/
theorem drawTwice : Obligations.DrawTwice := by
  intro x y n s hx hy hb
  obtain ⟨t, ht⟩ : ∃ t, t = s.drawSprite x y (s.rowsAt n) := ⟨_, rfl⟩
  obtain ⟨u, hu⟩ : ∃ u, u = t.drawSprite x y (t.rowsAt n) := ⟨_, rfl⟩
  have hbt := inBounds_of_drawn ht hb
  have hpixel : ∀ {px py}, Touched s x y n px py →
      Display.pixel t.display px py = pixelOp s.params.drawMode (Display.pixel s.display px py) :=
    fun h => ht ▸ drawSprite_pixel_of_touched x y hb h
  refine ⟨t, u, ht ▸ execDrw_draws x y hb, hu ▸ execDrw_draws x y hbt, fun hxor => ?_, fun hset => ⟨?_, ?_⟩,
    fun hxor hclear => ?_⟩
  · refine Display.eq_of_pixel fun px py _ _ => ?_
    by_cases h : Touched s x y n px py
    · rw [drawTwice_pixel_of_touched hx hy hb ht hu h, hxor]
      exact Bool.not_not _
    · exact drawTwice_pixel_of_not_touched hx hy hb ht hu h
  · refine Display.eq_of_pixel fun px py _ _ => ?_
    by_cases h : Touched s x y n px py
    · rw [drawTwice_pixel_of_touched hx hy hb ht hu h, hpixel h, hset]
      rfl
    · rw [drawTwice_pixel_of_not_touched hx hy hb ht hu h, ht, drawSprite_pixel_of_not_touched x y hb h]
  · refine drawTwice_vf hx hy hb ht hu fun px py _ _ h => ?_
    rw [hpixel h, hset]
    rfl
  · refine drawTwice_vf hx hy hb ht hu fun px py hpx hpy h => ?_
    rw [hpixel h, hxor, ← Display.entry_eq_pixel s.display hpx hpy, hclear]
    rfl

/-- `s` in draw mode `m`, all else the same: the touched pixels too, by definition. -/
def State.withMode (s : State) (m : DrawMode) : State := { s with params := { s.params with drawMode := m } }

/-- The two modes draw a dark pixel alike. -/
theorem pixelOp_false (mode : DrawMode) : pixelOp mode false = true := by
  cases mode <;> rfl

section
variable {s : State} {n : Nibble} (m : DrawMode) (x y : Reg) (hb : s.i.toNat + n.toNat ≤ 4096)
include hb

/-- The flag, and with it every register, is the same in both modes. -/
theorem drawSprite_withMode_v :
    ((s.withMode m).drawSprite x y ((s.withMode m).rowsAt n)).v = (s.drawSprite x y (s.rowsAt n)).v := by
  have hflag := (drawRows_collision_iff (s := s.withMode m) x y hb).trans (drawRows_collision_iff x y hb).symm
  have hcollision := Bool.eq_iff_iff.2 hflag
  simp only [State.drawSprite, State.setCollision_v, hcollision]
  rfl

/-- A pixel that the modes draw differently is touched, and was lit. -/
theorem touched_lit_of_pixel_ne {px py : Nat}
    (hne : Display.pixel ((s.withMode m).drawSprite x y ((s.withMode m).rowsAt n)).display px py ≠
      Display.pixel (s.drawSprite x y (s.rowsAt n)).display px py) :
    Touched s x y n px py ∧ Display.pixel s.display px py = true := by
  by_cases ht : Touched s x y n px py
  · refine ⟨ht, ?_⟩
    by_contra hdark
    rw [Bool.not_eq_true] at hdark
    have hm : Display.pixel ((s.withMode m).drawSprite x y ((s.withMode m).rowsAt n)).display px py =
        pixelOp m (Display.pixel s.display px py) := drawSprite_pixel_of_touched (s := s.withMode m) x y hb ht
    rw [hm, drawSprite_pixel_of_touched x y hb ht, hdark, pixelOp_false, pixelOp_false] at hne
    exact hne rfl
  · have hm : Display.pixel ((s.withMode m).drawSprite x y ((s.withMode m).rowsAt n)).display px py =
        Display.pixel s.display px py := drawSprite_pixel_of_not_touched (s := s.withMode m) x y hb ht
    rw [hm, drawSprite_pixel_of_not_touched x y hb ht] at hne
    exact absurd rfl hne

end

/-- Settles O28: a DRW that faults does so in both modes alike; one that draws sets the same flag. -/
theorem drawModesAgreeOnFlag : Obligations.DrawModesAgreeOnFlag := by
  intro x y n s t u m ht hu
  by_cases hb : s.i.toNat + n.toNat ≤ 4096
  · rw [execDrw_draws x y hb] at ht
    cases ht
    cases (execDrw_draws (s := s.withMode m) x y hb).symm.trans hu
    refine ⟨?_, rfl, rfl, fun px py => touched_lit_of_pixel_ne m x y hb⟩
    exact State.eq_of_fields (drawSprite_withMode_v m x y hb) rfl rfl rfl rfl rfl rfl rfl rfl rfl rfl rfl
  · rw [execDrw_faults x y hb] at ht
    cases ht
    cases (execDrw_faults (s := s.withMode m) x y hb).symm.trans hu
    exact ⟨rfl, rfl, rfl, fun _ _ hne => absurd rfl hne⟩

/-- In SET no instruction but CLS turns a pixel off. -/
theorem exec_set_keeps_lit {i : Instr} {s t : State} (hset : s.params.drawMode = .set) (hcls : i ≠ .cls)
    (h : exec i s = .next t) {px py : Nat} (hlit : Display.pixel s.display px py = true) :
    Display.pixel t.display px py = true := by
  cases i with
  | cls => exact absurd rfl hcls
  | drw x y n =>
    by_cases hb : s.i.toNat + n.toNat ≤ 4096
    · rw [execDrw_draws x y hb] at h
      cases h
      by_cases ht : Touched s x y n px py
      · rw [drawSprite_pixel_of_touched x y hb ht, hset]
        rfl
      · rw [drawSprite_pixel_of_not_touched x y hb ht, hlit]
    · rw [execDrw_faults x y hb] at h
      cases h
      exact hlit
  | _ =>
    cases h
    exact hlit

/-- Settles O29: a TICK that does not execute leaves the display, and one that executes fetched no CLS. -/
theorem setModeNeverUnlights : Obligations.SetModeNeverUnlights := by
  intro s t hset hcls h k hlit
  obtain ⟨_, _, hs⟩ | ⟨_, _, hs⟩ | ⟨w, i, hf, hd, hs⟩ | ⟨_, _, _, _, hs⟩ := step_cases s <;> rw [hs] at h
  · cases h
    exact hlit
  · cases h
    exact hlit
  · have hi : i ≠ .cls := by
      rintro rfl
      rw [← encode_of_decodeWord hd] at hf
      exact hcls hf
    exact exec_set_keeps_lit (s := s.advancePc) hset hi h hlit
  · cases h
    exact hlit

end Sys2Proof.Machine
